-- ==== Sys2Proof/Word.lean ====
section
/-! DEFINITION. The machine's word and the byte of its console. -/

namespace Sys2Proof

/-- A general register, a memory cell, an address: "16-bit unsigned value" (00_scope.md R4, R6). -/
abbrev Word := BitVec 16

/-- A character code, as the console takes and gives it (45_execution_cycle.md R187, R188). -/
abbrev Byte := BitVec 8

end Sys2Proof
end

