-- ==== Sys2Proof/Syntax.lean ====
section
/-! DEFINITION. The instructions: one constructor per row of spec/opcode_table.json (25 rows). -/

namespace Sys2Proof

/-- The eight general registers (10_state.md R20). -/
inductive Reg where
  | r0 | r1 | r2 | r3 | r4 | r5 | r6 | r7
  deriving DecidableEq, Repr

/-- The instruction forms of 30_encoding.md, with the operand fields the table names. Bits marked
"ignored" (R94) are no operands. -/
inductive Instr where
  /-- ADD, register form (40_operate.md R110) -/
  | addReg (dr sr1 sr2 : Reg)
  /-- ADD, immediate form (40_operate.md R110) -/
  | addImm (dr sr1 : Reg) (imm5 : BitVec 5)
  /-- AND, register form (40_operate.md R111) -/
  | andReg (dr sr1 sr2 : Reg)
  /-- AND, immediate form (40_operate.md R111) -/
  | andImm (dr sr1 : Reg) (imm5 : BitVec 5)
  /-- NOT (40_operate.md R112) -/
  | not (dr sr : Reg)
  /-- BR with mask bits n, z, p (41_control.md R120) -/
  | br (n z p : Bool) (offset9 : BitVec 9)
  /-- JMP; with R7 it is RET (41_control.md R121) -/
  | jmp (baseR : Reg)
  /-- JSR, mode bit set (41_control.md R122) -/
  | jsr (offset11 : BitVec 11)
  /-- JSRR, mode bit clear (41_control.md R123) -/
  | jsrr (baseR : Reg)
  /-- LD (42_load_store.md R130) -/
  | ld (dr : Reg) (offset9 : BitVec 9)
  /-- LDI (42_load_store.md R131) -/
  | ldi (dr : Reg) (offset9 : BitVec 9)
  /-- LDR (42_load_store.md R132) -/
  | ldr (dr baseR : Reg) (offset6 : BitVec 6)
  /-- LEA (42_load_store.md R133) -/
  | lea (dr : Reg) (offset9 : BitVec 9)
  /-- ST (42_load_store.md R134) -/
  | st (sr : Reg) (offset9 : BitVec 9)
  /-- STI (42_load_store.md R135) -/
  | sti (sr : Reg) (offset9 : BitVec 9)
  /-- STR (42_load_store.md R136) -/
  | str (sr baseR : Reg) (offset6 : BitVec 6)
  /-- TRAP 0x20 (43_trap.md R152) -/
  | trapGetc
  /-- TRAP 0x21 (43_trap.md R153) -/
  | trapOut
  /-- TRAP 0x22 (43_trap.md R154) -/
  | trapPuts
  /-- TRAP 0x23 (43_trap.md R155) -/
  | trapIn
  /-- TRAP 0x24 (43_trap.md R156) -/
  | trapPutsp
  /-- TRAP 0x25 (43_trap.md R157) -/
  | trapHalt
  /-- TRAP with any other vector (43_trap.md R158) -/
  | trapUnhandled (trapvect8 : BitVec 8)
  /-- RTI, illegal on this hardware (44_illegal.md R170) -/
  | rti
  /-- RES, reserved and illegal (44_illegal.md R171) -/
  | res
  deriving DecidableEq, Repr

end Sys2Proof
end

