-- ==== Sys2Proof/WellFormed.lean ====
section
/-! DEFINITION. Which terms of `Instr` stand for a word. Every operand type is exactly as wide as its
field, so one check is left: the vector of an unhandled TRAP is none of the six handled ones. -/

namespace Sys2Proof

/-- The six vectors the TrapTable has an entry for: "fixed codes `0x20`-`0x25`" (43_trap.md R151). -/
def isHandledVector (v : BitVec 8) : Bool :=
  decide (0x20 ≤ v.toNat) && decide (v.toNat ≤ 0x25)

/-- The only ill-formed terms are `trapUnhandled v` with `v` handled (43_trap.md R158, the table's
"applies only when trapvect8 is outside 0x20..0x25"). -/
def Instr.wellFormed : Instr → Bool
  | .trapUnhandled v => !isHandledVector v
  | .addReg _ _ _ | .addImm _ _ _ | .andReg _ _ _ | .andImm _ _ _ | .not _ _ | .br _ _ _ _
  | .jmp _ | .jsr _ | .jsrr _ | .ld _ _ | .ldi _ _ | .ldr _ _ _ | .lea _ _ | .st _ _ | .sti _ _
  | .str _ _ _ | .trapGetc | .trapOut | .trapPuts | .trapIn | .trapPutsp | .trapHalt | .rti
  | .res => true

end Sys2Proof
end

