-- ==== Sys2Proof/Decode.lean ====
section
/-! DEFINITION. From an instruction word to an instruction, total over the 65,536 words
(30_encoding.md R81), and back; and the opcode table of the spec as data. -/

namespace Sys2Proof

/-- "The value i of a register field names R*i*" (30_encoding.md R83). -/
def Reg.ofBits (b : BitVec 3) : Reg :=
  match b with
  | 0#3 => .r0
  | 1#3 => .r1
  | 2#3 => .r2
  | 3#3 => .r3
  | 4#3 => .r4
  | 5#3 => .r5
  | 6#3 => .r6
  | 7#3 => .r7

/-- The field value that names a register (30_encoding.md R83). -/
def Reg.toBits : Reg → BitVec 3
  | .r0 => 0#3
  | .r1 => 1#3
  | .r2 => 2#3
  | .r3 => 3#3
  | .r4 => 4#3
  | .r5 => 5#3
  | .r6 => 6#3
  | .r7 => 7#3

/-- `bits[hi:lo]` of a word, as a field of its width (00_scope.md R6). -/
def bitField (w : Word) (hi lo : Nat) : BitVec (hi - lo + 1) := w.extractLsb hi lo

/-- The opcode is the top 4 bits (30_encoding.md R81). -/
def opcodeField (w : Word) : BitVec 4 := bitField w 15 12

/-- Register field in bits 11:9: DR, or the SR of a store (30_encoding.md R83). -/
def regHigh (w : Word) : Reg := Reg.ofBits (bitField w 11 9)

/-- Register field in bits 8:6: SR1, SR of NOT, BaseR (30_encoding.md R83). -/
def regMid (w : Word) : Reg := Reg.ofBits (bitField w 8 6)

/-- Register field in bits 2:0: SR2 (30_encoding.md R83). -/
def regLow (w : Word) : Reg := Reg.ofBits (bitField w 2 0)

/-- imm5, offset6, offset9, offset11, trapvect8: the low bits of the word (30_encoding.md R93). -/
def imm5Field (w : Word) : BitVec 5 := bitField w 4 0

@[inherit_doc imm5Field]
def offset6Field (w : Word) : BitVec 6 := bitField w 5 0

@[inherit_doc imm5Field]
def offset9Field (w : Word) : BitVec 9 := bitField w 8 0

@[inherit_doc imm5Field]
def offset11Field (w : Word) : BitVec 11 := bitField w 10 0

@[inherit_doc imm5Field]
def vectorField (w : Word) : BitVec 8 := bitField w 7 0

/-- The TrapTable entry a vector selects (43_trap.md R150). -/
def decodeTrap (v : BitVec 8) : Instr :=
  match v with
  | 0x20#8 => .trapGetc
  | 0x21#8 => .trapOut
  | 0x22#8 => .trapPuts
  | 0x23#8 => .trapIn
  | 0x24#8 => .trapPutsp
  | 0x25#8 => .trapHalt
  | v => .trapUnhandled v

/-- The decoder: every word selects exactly one form; bits 15:12 choose, then the mode bit of ADD,
AND (bit 5) or JSR (bit 11), or the low byte of TRAP (30_encoding.md R81 to R92). -/
def decodeWord (w : Word) : Instr :=
  match opcodeField w with
  | 0b0000#4 => .br (w.getLsbD 11) (w.getLsbD 10) (w.getLsbD 9) (offset9Field w)
  | 0b0001#4 =>
    if w.getLsbD 5 then .addImm (regHigh w) (regMid w) (imm5Field w)
    else .addReg (regHigh w) (regMid w) (regLow w)
  | 0b0010#4 => .ld (regHigh w) (offset9Field w)
  | 0b0011#4 => .st (regHigh w) (offset9Field w)
  | 0b0100#4 => if w.getLsbD 11 then .jsr (offset11Field w) else .jsrr (regMid w)
  | 0b0101#4 =>
    if w.getLsbD 5 then .andImm (regHigh w) (regMid w) (imm5Field w)
    else .andReg (regHigh w) (regMid w) (regLow w)
  | 0b0110#4 => .ldr (regHigh w) (regMid w) (offset6Field w)
  | 0b0111#4 => .str (regHigh w) (regMid w) (offset6Field w)
  | 0b1000#4 => .rti
  | 0b1001#4 => .not (regHigh w) (regMid w)
  | 0b1010#4 => .ldi (regHigh w) (offset9Field w)
  | 0b1011#4 => .sti (regHigh w) (offset9Field w)
  | 0b1100#4 => .jmp (regMid w)
  | 0b1101#4 => .res
  | 0b1110#4 => .lea (regHigh w) (offset9Field w)
  -- the one value left, 0b1111
  | _ => decodeTrap (vectorField w)

/-- Why a list of words holds no instruction. -/
inductive DecodeError where
  /-- There is no word to decode. No word itself is ever rejected (30_encoding.md R81). Safe. -/
  | noWord
  deriving DecidableEq, Repr

/-- Decoding a stream of words: one word is one instruction (30_encoding.md R80). -/
def decode : List Word → Except DecodeError (Instr × List Word)
  | [] => .error .noWord
  | w :: rest => .ok (decodeWord w, rest)

/-- The instruction the decoder reads from a word whose bits are `w`, numbered as the opcode table
numbers them. An instruction is one 16-bit word, so a wider row, or bits past the row, read as none. -/
def decodeTableWord (nbits w : Nat) : Option Instr :=
  if nbits ≤ 16 ∧ w < 2 ^ nbits then
    match decode [BitVec.ofNat 16 w] with
    | .ok (i, _) => some i
    | .error _ => none
  else none

/-- A field put in a word with its lowest bit at bit `lo`. -/
def place {n : Nat} (lo : Nat) (field : BitVec n) : Word := field.setWidth 16 <<< lo

/-- TRAP's word: bits 11:8 written as 0000 (30_encoding.md R91). -/
def encodeTrap (v : BitVec 8) : Word := place 12 0b1111#4 ||| place 0 v

/-- The word of an instruction, from the formats of 30_encoding.md R84 to R92. Ignored bits get the
values those rules say an assembler writes (log 14). -/
def encode : Instr → Word
  | .addReg dr sr1 sr2 =>
    place 12 0b0001#4 ||| place 9 dr.toBits ||| place 6 sr1.toBits ||| place 0 sr2.toBits
  | .addImm dr sr1 imm5 =>
    place 12 0b0001#4 ||| place 9 dr.toBits ||| place 6 sr1.toBits ||| place 5 1#1 ||| place 0 imm5
  | .andReg dr sr1 sr2 =>
    place 12 0b0101#4 ||| place 9 dr.toBits ||| place 6 sr1.toBits ||| place 0 sr2.toBits
  | .andImm dr sr1 imm5 =>
    place 12 0b0101#4 ||| place 9 dr.toBits ||| place 6 sr1.toBits ||| place 5 1#1 ||| place 0 imm5
  | .not dr sr =>
    place 12 0b1001#4 ||| place 9 dr.toBits ||| place 6 sr.toBits ||| place 0 0b111111#6
  | .br n z p offset9 =>
    place 12 0b0000#4 ||| place 11 (BitVec.ofBool n) ||| place 10 (BitVec.ofBool z) |||
      place 9 (BitVec.ofBool p) ||| place 0 offset9
  | .jmp baseR => place 12 0b1100#4 ||| place 6 baseR.toBits
  | .jsr offset11 => place 12 0b0100#4 ||| place 11 1#1 ||| place 0 offset11
  | .jsrr baseR => place 12 0b0100#4 ||| place 6 baseR.toBits
  | .ld dr offset9 => place 12 0b0010#4 ||| place 9 dr.toBits ||| place 0 offset9
  | .ldi dr offset9 => place 12 0b1010#4 ||| place 9 dr.toBits ||| place 0 offset9
  | .ldr dr baseR offset6 =>
    place 12 0b0110#4 ||| place 9 dr.toBits ||| place 6 baseR.toBits ||| place 0 offset6
  | .lea dr offset9 => place 12 0b1110#4 ||| place 9 dr.toBits ||| place 0 offset9
  | .st sr offset9 => place 12 0b0011#4 ||| place 9 sr.toBits ||| place 0 offset9
  | .sti sr offset9 => place 12 0b1011#4 ||| place 9 sr.toBits ||| place 0 offset9
  | .str sr baseR offset6 =>
    place 12 0b0111#4 ||| place 9 sr.toBits ||| place 6 baseR.toBits ||| place 0 offset6
  | .trapGetc => encodeTrap 0x20#8
  | .trapOut => encodeTrap 0x21#8
  | .trapPuts => encodeTrap 0x22#8
  | .trapIn => encodeTrap 0x23#8
  | .trapPutsp => encodeTrap 0x24#8
  | .trapHalt => encodeTrap 0x25#8
  | .trapUnhandled v => encodeTrap v
  | .rti => place 12 0b1000#4
  | .res => place 12 0b1101#4

/-- A row of the opcode table: "a word w selects the row when `(w & mask) = match`", and a fallback
row only when no other row does (30_encoding.md R98). -/
structure TableRow where
  mnemonic : String
  pattern : Word
  mask : Word
  fallback : Bool
  deriving DecidableEq, Repr

def TableRow.selects (r : TableRow) (w : Word) : Bool := (w &&& r.mask) == r.pattern

/-- The row of spec/opcode_table.json each instruction form stands for. -/
def Instr.row : Instr → TableRow
  | .addReg _ _ _ => ⟨"ADD", 0x1000#16, 0xF020#16, false⟩
  | .addImm _ _ _ => ⟨"ADD", 0x1020#16, 0xF020#16, false⟩
  | .andReg _ _ _ => ⟨"AND", 0x5000#16, 0xF020#16, false⟩
  | .andImm _ _ _ => ⟨"AND", 0x5020#16, 0xF020#16, false⟩
  | .not _ _ => ⟨"NOT", 0x9000#16, 0xF000#16, false⟩
  | .br _ _ _ _ => ⟨"BR", 0x0000#16, 0xF000#16, false⟩
  | .jmp _ => ⟨"JMP", 0xC000#16, 0xF000#16, false⟩
  | .jsr _ => ⟨"JSR", 0x4800#16, 0xF800#16, false⟩
  | .jsrr _ => ⟨"JSRR", 0x4000#16, 0xF800#16, false⟩
  | .ld _ _ => ⟨"LD", 0x2000#16, 0xF000#16, false⟩
  | .ldi _ _ => ⟨"LDI", 0xA000#16, 0xF000#16, false⟩
  | .ldr _ _ _ => ⟨"LDR", 0x6000#16, 0xF000#16, false⟩
  | .lea _ _ => ⟨"LEA", 0xE000#16, 0xF000#16, false⟩
  | .st _ _ => ⟨"ST", 0x3000#16, 0xF000#16, false⟩
  | .sti _ _ => ⟨"STI", 0xB000#16, 0xF000#16, false⟩
  | .str _ _ _ => ⟨"STR", 0x7000#16, 0xF000#16, false⟩
  | .trapGetc => ⟨"TRAP_GETC", 0xF020#16, 0xF0FF#16, false⟩
  | .trapOut => ⟨"TRAP_OUT", 0xF021#16, 0xF0FF#16, false⟩
  | .trapPuts => ⟨"TRAP_PUTS", 0xF022#16, 0xF0FF#16, false⟩
  | .trapIn => ⟨"TRAP_IN", 0xF023#16, 0xF0FF#16, false⟩
  | .trapPutsp => ⟨"TRAP_PUTSP", 0xF024#16, 0xF0FF#16, false⟩
  | .trapHalt => ⟨"TRAP_HALT", 0xF025#16, 0xF0FF#16, false⟩
  | .trapUnhandled _ => ⟨"TRAP_UNHANDLED", 0xF000#16, 0xF000#16, true⟩
  | .rti => ⟨"RTI", 0x8000#16, 0xF000#16, false⟩
  | .res => ⟨"RES", 0xD000#16, 0xF000#16, false⟩

/-- The bits of an instruction's word that are not "ignored" (30_encoding.md R84 to R92, R94). -/
def Instr.usedBits : Instr → Word
  | .addReg _ _ _ | .andReg _ _ _ => 0xFFE7#16
  | .addImm _ _ _ | .andImm _ _ _ | .br _ _ _ _ | .jsr _ | .ld _ _ | .ldi _ _ | .ldr _ _ _
  | .lea _ _ | .st _ _ | .sti _ _ | .str _ _ _ => 0xFFFF#16
  | .not _ _ => 0xFFC0#16
  | .jmp _ => 0xF1C0#16
  | .jsrr _ => 0xF9C0#16
  | .trapGetc | .trapOut | .trapPuts | .trapIn | .trapPutsp | .trapHalt
  | .trapUnhandled _ => 0xF0FF#16
  | .rti | .res => 0xF000#16

/-- One instruction of each form: the rows of the table, each once. -/
def tableForms : List Instr :=
  [.addReg .r0 .r0 .r0, .addImm .r0 .r0 0#5, .andReg .r0 .r0 .r0, .andImm .r0 .r0 0#5,
   .not .r0 .r0, .br false false false 0#9, .jmp .r0, .jsr 0#11, .jsrr .r0, .ld .r0 0#9,
   .ldi .r0 0#9, .ldr .r0 .r0 0#6, .lea .r0 0#9] ++
  [.st .r0 0#9, .sti .r0 0#9, .str .r0 .r0 0#6, .trapGetc, .trapOut, .trapPuts, .trapIn,
   .trapPutsp, .trapHalt, .trapUnhandled 0#8, .rti, .res]

/-- spec/opcode_table.json, its 25 rows. -/
def opcodeTable : List TableRow := tableForms.map Instr.row

end Sys2Proof
end

