-- ==== Sys2Proof/Config.lean ====
section
/-! DEFINITION. What is fixed for one machine: the fixed addresses and the five parameters the spec
leaves open (00_scope.md R5). -/

namespace Sys2Proof

/-- Keyboard status register (10_state.md R32). -/
def kbsrAddr : Word := 0xFE00#16

/-- Keyboard data register (10_state.md R33). -/
def kbdrAddr : Word := 0xFE02#16

/-- What a KBSR read returns when a key was available (20_memory.md R53). -/
def kbsrReady : Word := 0x8000#16

/-- PC at reset (70_reset_and_hazards.md R222). -/
def entryPoint : Word := 0x3000#16

/-- `EOF_BEHAVIOUR`: what `read_char` does once the host will never supply another character
(00_scope.md R5, decision D19). -/
inductive EofBehaviour where
  /-- the hold is never lifted by a character -/
  | block
  /-- a read on an ended input returns this byte at once -/
  | value (v : Byte)
  deriving DecidableEq, Repr

/-- The parameters of 00_scope.md R5. They do not change while the machine runs. DESIGN CHOICE
(log 6): a state carries them, so that every statement about all states holds for every value. -/
structure Config where
  /-- `HALT_NOTICE` (D13) -/
  haltNotice : List Byte
  /-- `IN_PROMPT` (D14) -/
  inPrompt : List Byte
  /-- `GETC_PROMPT` (D15) -/
  getcPrompt : List Byte
  /-- `PUTSP_ZERO_HIGH_STOPS` (D16) -/
  putspZeroHighStops : Bool
  /-- `EOF_BEHAVIOUR` (D19) -/
  eofBehaviour : EofBehaviour
  deriving DecidableEq, Repr

/-- The defaults of 00_scope.md R5: "HALT" and a newline; the 19 bytes of "Enter a character: ";
no GETC prompt; a zero high byte is only skipped; a read on an ended input blocks. -/
def Config.default : Config where
  haltNotice := [0x48#8, 0x41#8, 0x4C#8, 0x54#8, 0x0A#8]
  inPrompt := [0x45#8, 0x6E#8, 0x74#8, 0x65#8, 0x72#8, 0x20#8, 0x61#8, 0x20#8, 0x63#8, 0x68#8,
    0x61#8, 0x72#8, 0x61#8, 0x63#8, 0x74#8, 0x65#8, 0x72#8, 0x3A#8, 0x20#8]
  getcPrompt := []
  putspZeroHighStops := false
  eofBehaviour := .block

end Sys2Proof
end

