-- ==== Sys2Proof/Machine/State.lean ====
section
/-! DEFINITION. Everything the spec gives the machine (10_state.md), as plain data, and its value
after reset. -/

namespace Sys2Proof.Machine

/-- R0 to R7, each holding "whatever was last written to it" (10_state.md R20). -/
structure RegFile where
  r0 : Word
  r1 : Word
  r2 : Word
  r3 : Word
  r4 : Word
  r5 : Word
  r6 : Word
  r7 : Word
  deriving DecidableEq, Repr

/-- RUN, the run state of the execution loop (10_state.md R28). -/
inductive RunState where
  /-- the core fetches and executes -/
  | running
  /-- terminal: clean halt, entered by TRAP 0x25 -/
  | halted
  /-- terminal: illegal opcode, entered by RTI or RES -/
  | faulted
  /-- terminal: external interrupt observed between instructions -/
  | interrupted
  deriving DecidableEq, Repr

/-- FAULT_ADDR and FAULT_OPCODE (10_state.md R29). -/
structure FaultRecord where
  addr : Word
  opcode : BitVec 4
  deriving DecidableEq, Repr

/-- One report of an unhandled TRAP vector (10_state.md R30). -/
structure Anomaly where
  addr : Word
  vector : BitVec 8
  deriving DecidableEq, Repr

/-- The 65,536 cells of 16 bits (10_state.md R31). Cell `a` is held as two entries: its bits 7:0
under key `2 * a`, its bits 15:8 under key `2 * a + 1` (DESIGN CHOICE, log 2: the hardware has no
byte address, and only `Memory.readCell` and `Memory.writeCell` reach the entries). -/
abbrev Memory := List Host.Cell

/-- What half a cell that is not listed reads as: every cell is `0x0000` at reset (10_state.md R31). -/
def unlistedByte : Byte := 0x00#8

/-- One past the highest key: two for each of the 65,536 cells. -/
def Memory.keyCount : Nat := 131072

/-- Keys strictly rising from `lo` on, each the key of an existing cell, no entry equal to what an
unlisted key reads as. -/
def Memory.wfFrom (lo : Nat) : Memory → Bool
  | [] => true
  | (k, b) :: rest =>
    decide (lo ≤ k) && decide (k < Memory.keyCount) && (b != unlistedByte) &&
      Memory.wfFrom (k + 1) rest

/-- The canonical form, so that equal memories are equal data. -/
def Memory.wf (m : Memory) : Bool := Memory.wfFrom 0 m

/-- The machine's state. -/
structure State where
  /-- general registers (10_state.md R20, R21) -/
  regs : RegFile
  /-- program counter (10_state.md R22, R23) -/
  pc : Word
  /-- COND, the 3-bit condition-flag register (10_state.md R25) -/
  cond : BitVec 3
  /-- RUN (10_state.md R28) -/
  run : RunState
  /-- the fault record, `none` while not valid (10_state.md R29) -/
  fault : Option FaultRecord
  /-- anomaly report log, oldest first (10_state.md R30) -/
  anomalies : List Anomaly
  /-- memory cells, KBSR and KBDR among them (10_state.md R31, R32, R33) -/
  mem : Memory
  /-- console input queue, head first (10_state.md R34) -/
  input : List Byte
  /-- the host will never supply another character; the model's own field (log 7) -/
  inputEnded : Bool
  /-- console output log, oldest first (10_state.md R35) -/
  output : List Byte
  /-- external interrupt pending (10_state.md R36) -/
  irqPending : Bool
  /-- the parameters of 00_scope.md R5; never changed (log 6) -/
  config : Config
  deriving DecidableEq, Repr

/-- The reasons a step can stop with a fault. -/
inductive Fault where
  /-- Raised by TRAP PUTS and TRAP PUTSP when the string walk meets no end: "treat it as `stuck` (no
  step), never as a step with some output" (93_implementation_defined.md U10). Safe: the model stops
  where the hardware would walk on for ever. No state raises it (log 5). -/
  | stringNeverEnds
  deriving DecidableEq, Repr

/-- The reasons an instruction can be refused. -/
inductive Refusal where
  /-- Raised by an arm of `exec` that has no meaning yet; no arm is left. Safe. -/
  | notModelled (mnemonic : String)
  deriving DecidableEq, Repr

/-- All eight registers zero: "all registers initialize to 0" (10_state.md R38). -/
def RegFile.reset : RegFile := ⟨0#16, 0#16, 0#16, 0#16, 0#16, 0#16, 0#16, 0#16⟩

/-- The machine right after reset, before the host loads an image (10_state.md R38,
70_reset_and_hazards.md R221). The input queue is "the host's"; the model takes it empty and not
ended (DESIGN CHOICE, log 7, log 8). -/
def State.reset : State where
  regs := RegFile.reset
  pc := entryPoint
  cond := 0b010#3
  run := .running
  fault := none
  anomalies := []
  mem := []
  input := []
  inputEnded := false
  output := []
  irqPending := false
  config := Config.default

end Sys2Proof.Machine
end

