-- ==== Sys2Proof/Machine/Flags.lean ====
section
/-! DEFINITION. The condition flags: how COND is computed and how BR tests it. -/

namespace Sys2Proof.Machine

/-- POSITIVE (10_state.md R25). -/
def flP : BitVec 3 := 0b001#3

/-- ZERO (10_state.md R25). -/
def flZ : BitVec 3 := 0b010#3

/-- NEGATIVE (10_state.md R25). -/
def flN : BitVec 3 := 0b100#3

/-- The flag of a 16-bit result: "ZERO if value == 0; NEGATIVE if the top bit is set; POSITIVE
otherwise" (10_state.md R26). -/
def flagsOf (v : Word) : BitVec 3 :=
  if v = 0#16 then flZ else if v.getLsbD 15 then flN else flP

/-- "exactly one flag bit is set" (10_state.md R26). -/
def condOneHot (c : BitVec 3) : Bool := c == flN || c == flZ || c == flP

/-- The BR mask as the 3-bit value `n ++ z ++ p` (30_encoding.md R86). -/
def brMask (n z p : Bool) : BitVec 3 := BitVec.ofBool n ++ BitVec.ofBool z ++ BitVec.ofBool p

/-- "(mask & current condition flags) != 0" (41_control.md R120). -/
def brTaken (mask cond : BitVec 3) : Bool := (mask &&& cond) != 0#3

end Sys2Proof.Machine
end

