-- ==== Sys2Proof/Machine/Ops.lean ====
section
/-! DEFINITION. The operations every instruction is written over: registers, memory cells, the bus
with the keyboard, the console, and what the machine does at a fault, a TRAP and an interrupt. -/

namespace Sys2Proof.Machine

open Sys2Proof

/-! ## Registers (10_state.md R20) -/

/-- `x[i]`. -/
def RegFile.read (f : RegFile) : Reg → Word
  | .r0 => f.r0
  | .r1 => f.r1
  | .r2 => f.r2
  | .r3 => f.r3
  | .r4 => f.r4
  | .r5 => f.r5
  | .r6 => f.r6
  | .r7 => f.r7

/-- `x[i] <- v`. -/
def RegFile.write (f : RegFile) (i : Reg) (v : Word) : RegFile :=
  match i with
  | .r0 => { f with r0 := v }
  | .r1 => { f with r1 := v }
  | .r2 => { f with r2 := v }
  | .r3 => { f with r3 := v }
  | .r4 => { f with r4 := v }
  | .r5 => { f with r5 := v }
  | .r6 => { f with r6 := v }
  | .r7 => { f with r7 := v }

/-- `x[i]` of the state (00_scope.md R7). -/
def State.reg (s : State) (i : Reg) : Word := s.regs.read i

/-- `x[i] <- v` (00_scope.md R7). -/
def State.writeReg (s : State) (i : Reg) (v : Word) : State := { s with regs := s.regs.write i v }

/-- `pc <- target` (00_scope.md R7). -/
def State.setPc (s : State) (target : Word) : State := { s with pc := target }

/-- `setcc(i)`: COND from the current value of R*i* (10_state.md R26). -/
def State.setcc (s : State) (i : Reg) : State := { s with cond := flagsOf (s.reg i) }

/-- `x[DR] <- v` and then `setcc(DR)`: how every flag-updating instruction ends (10_state.md R27). -/
def State.writeResult (s : State) (dr : Reg) (v : Word) : State := (s.writeReg dr v).setcc dr

/-! ## Memory cells (10_state.md R31) -/

/-- The half cell under a key. -/
def Memory.readByte (m : Memory) (k : Nat) : Byte :=
  match m with
  | [] => unlistedByte
  | (k', b) :: rest => if k' = k then b else Memory.readByte rest k

/-- The list without its entries under a key. -/
def Memory.erase (m : Memory) (k : Nat) : Memory := m.filter fun e => !decide (e.1 = k)

/-- An entry put before the first entry with a larger key. -/
def Memory.insert (m : Memory) (k : Nat) (b : Byte) : Memory :=
  match m with
  | [] => [(k, b)]
  | e :: rest => if k < e.1 then (k, b) :: e :: rest else e :: Memory.insert rest k b

/-- A half cell is written: no entry is kept for the value an unlisted key reads as. -/
def Memory.writeByte (m : Memory) (k : Nat) (b : Byte) : Memory :=
  if b = unlistedByte then m.erase k else (m.erase k).insert k b

/-- `mem[a]` read as storage, with no side effect (00_scope.md R7). -/
def Memory.readCell (m : Memory) (a : Word) : Word :=
  m.readByte (2 * a.toNat + 1) ++ m.readByte (2 * a.toNat)

/-- `mem[a] <- v` as storage, with no side effect (00_scope.md R7). -/
def Memory.writeCell (m : Memory) (a v : Word) : Memory :=
  (m.writeByte (2 * a.toNat) (v.extractLsb' 0 8)).writeByte (2 * a.toNat + 1) (v.extractLsb' 8 8)

/-- `mem[a]` of the state. -/
def State.cell (s : State) (a : Word) : Word := s.mem.readCell a

/-- `mem[a] <- v` of the state. -/
def State.writeCell (s : State) (a v : Word) : State := { s with mem := s.mem.writeCell a v }

/-! ## Console (45_execution_cycle.md R186 to R189) -/

/-- `key_available()`: the input queue is not empty; the queue is not changed (R186). -/
def State.keyAvailable (s : State) : Bool := !s.input.isEmpty

/-- `read_char()`: the head of the queue and the state without it; `none` where the call would
block. An empty queue whose input has ended answers as `EOF_BEHAVIOUR` says (R187). -/
def State.readChar (s : State) : Option (Byte × State) :=
  match s.input with
  | c :: rest => some (c, { s with input := rest })
  | [] =>
    match s.inputEnded, s.config.eofBehaviour with
    | true, .value v => some (v, s)
    | true, .block => none
    | false, _ => none

/-- `write_char(b)` (R188). -/
def State.writeChar (s : State) (b : Byte) : State := { s with output := s.output ++ [b] }

/-- `write_char` of each byte in turn. -/
def State.writeChars (s : State) (bs : List Byte) : State := { s with output := s.output ++ bs }

/-- `flush()` "changes no state of the model" (R189; log 16). -/
def State.flush (s : State) : State := s

/-- `zext_8` to a word (00_scope.md R7; decision D20). -/
def zext8 (b : Byte) : Word := b.setWidth 16

/-- Bits 7:0 of a word. -/
def lowByte (w : Word) : Byte := w.extractLsb' 0 8

/-- Bits 15:8 of a word. -/
def highByte (w : Word) : Byte := w.extractLsb' 8 8

/-! ## The bus (20_memory.md R53, R54) -/

/-- What a read of KBSR does before the cell is returned: a key available is taken and its code put
in KBDR, KBSR says whether one was (20_memory.md R53). -/
def State.pollKeyboard (s : State) : State :=
  match s.input with
  | c :: rest => ({ s with input := rest }.writeCell kbsrAddr kbsrReady).writeCell kbdrAddr (zext8 c)
  | [] => s.writeCell kbsrAddr 0#16

/-- `MemRead(a, 16)`: the value and the state after the read (20_memory.md R53). -/
def State.memRead (s : State) (a : Word) : Word × State :=
  if a = kbsrAddr then (s.pollKeyboard.cell a, s.pollKeyboard) else (s.cell a, s)

/-- `MemWrite(a, 16, v)`: a plain store at every address (20_memory.md R54). -/
def State.memWrite (s : State) (a v : Word) : State := s.writeCell a v

/-! ## What diverts or stops execution (60_exceptions.md) -/

/-- The address of the executing instruction: `pc` is the incremented value (00_scope.md R7). -/
def State.instrAddr (s : State) : Word := s.pc - 1#16

/-- `raise IllegalOpcode(pc - 1, opcode)`: the fault record is written, RUN becomes FAULTED, nothing
else changes (60_exceptions.md R201). -/
def State.raiseIllegalOpcode (s : State) (opcode : BitVec 4) : State :=
  { s with run := .faulted, fault := some ⟨s.instrAddr, opcode⟩ }

/-- `report UnhandledTrap(pc - 1, vector)` (60_exceptions.md R203). -/
def State.reportUnhandledTrap (s : State) (vector : BitVec 8) : State :=
  { s with anomalies := s.anomalies ++ [⟨s.instrAddr, vector⟩] }

/-- TRAP entry: "saves exactly one thing: `x[7] <- pc`" (60_exceptions.md R207). Nothing is restored
when the routine ends (R208): the return is that `pc` is left as it is. -/
def State.enterTrap (s : State) : State := s.writeReg .r7 s.pc

/-- `run <- INTERRUPTED`, nothing else (60_exceptions.md R205). -/
def State.takeInterrupt (s : State) : State := { s with run := .interrupted }

/-- `run <- HALTED` (43_trap.md R157). -/
def State.halt (s : State) : State := { s with run := .halted }

/-- The hold of an instruction that would block: PC points at it again and nothing else has changed
(45_execution_cycle.md R187; log 4). -/
def State.holdInstruction (s : State) : State := s.setPc s.instrAddr

/-! ## String walks of PUTS and PUTSP (43_trap.md R154, R156) -/

/-- What PUTS does with a non-zero cell: its low byte is written and the walk goes on (R154). -/
def putsCell (w : Word) : List Byte × Bool := ([lowByte w], false)

/-- What PUTSP does with a non-zero cell: the low byte is written, then the high byte if non-zero; a
zero high byte ends the walk exactly when `PUTSP_ZERO_HIGH_STOPS` (R156). -/
def putspCell (zeroHighStops : Bool) (w : Word) : List Byte × Bool :=
  if highByte w ≠ 0#8 then ([lowByte w, highByte w], false) else ([lowByte w], zeroHighStops)

/-- The loop of R154 and R156 from pointer `a`: one bus read per cell, a zero word ends it, `emit`
gives a cell's bytes and whether it ends the walk. `none`: `fuel` cells were read and no end met. -/
def State.walkString (emit : Word → List Byte × Bool) : Nat → Word → State → Option State
  | 0, _, _ => none
  | fuel + 1, a, s =>
    if (s.memRead a).1 = 0#16 then some (s.memRead a).2
    else if (emit (s.memRead a).1).2 then
      some ((s.memRead a).2.writeChars (emit (s.memRead a).1).1)
    else
      State.walkString emit fuel (a + 1#16) ((s.memRead a).2.writeChars (emit (s.memRead a).1).1)

/-- Enough cells for every walk: each turn through the address space reads KBSR once, which takes a
key from the queue or, with none left, reads zero and ends the string (DEDUCED, log 5). -/
def State.walkFuel (s : State) : Nat := 65536 * (s.input.length + 1)

end Sys2Proof.Machine
end

