-- ==== Sys2Proof/Machine/Cycle.lean ====
section
/-! DEFINITION. The parts of one instruction cycle before `execute` (45_execution_cycle.md R181): what
the step does first, the hold for a character, the fetch; and placing a word to be fetched next. -/

namespace Sys2Proof.Machine

open Sys2Proof

/-- TRAP 0x20 or TRAP 0x23, bits 11:8 whatever they are: the words that call `read_char()`
(45_execution_cycle.md R187). -/
def readsChar (w : Word) : Bool :=
  opcodeField w == 0b1111#4 && (vectorField w == 0x20#8 || vectorField w == 0x23#8)

/-- `read_char()` would block now (45_execution_cycle.md R187). -/
def State.wouldBlock (s : State) : Bool := s.readChar.isNone

/-- The core is held: not at `0xFE00`, the raw cell at `pc` is TRAP 0x20 or TRAP 0x23, and the read
would block. Looking at the raw cell has no side effect (45_execution_cycle.md R187). -/
def State.heldForInput (s : State) : Bool :=
  s.pc != kbsrAddr && readsChar (s.cell s.pc) && s.wouldBlock

/-- What the next step does, in the order of 60_exceptions.md R206. -/
inductive CycleAction where
  /-- a terminal run state: no step at all -/
  | stopped
  /-- the external interrupt is seen, no fetch -/
  | interrupt
  /-- held for a character, no step -/
  | hold
  /-- fetch, increment, execute -/
  | execute
  deriving DecidableEq, Repr

/-- "At most one event applies to a step" (60_exceptions.md R206). -/
def State.cycleAction (s : State) : CycleAction :=
  if s.run ≠ .running then .stopped
  else if s.irqPending then .interrupt
  else if s.heldForInput then .hold
  else .execute

/-- `bits = MemRead(pc, 16); pc <- (pc + 1) mod 2^16` (45_execution_cycle.md R181). -/
def State.fetch (s : State) : Word × State :=
  ((s.memRead s.pc).1, (s.memRead s.pc).2.setPc (s.pc + 1#16))

/-- The state in which the next step fetches `w`: running, no interrupt pending, `w` in the cell at
`pc` (at `0xFE00`, where a fetch does not return the stored cell, `pc` moves to the entry point), and,
where the core would be held before the fetch, one character 'A' in the queue (log 12). -/
def State.placeWord (s : State) (w : Word) : State :=
  let ready := { s with
    run := .running
    irqPending := false
    pc := if s.pc = kbsrAddr then entryPoint else s.pc }
  let placed := ready.writeCell ready.pc w
  if placed.heldForInput then { placed with input := [0x41#8] } else placed

end Sys2Proof.Machine
end

