-- ==== Sys2Proof/Machine/Operands.lean ====
section
/-! DEFINITION. Operand forms and effective addresses (42_load_store.md R137): every sum is modulo
2^16, and `pc` is the incremented PC. -/

namespace Sys2Proof.Machine

open Sys2Proof

/-- `sext_N(v)` to 16 bits (00_scope.md R7). -/
def sext {n : Nat} (v : BitVec n) : Word := v.signExtend 16

/-- Immediate operand of ADD and AND (30_encoding.md R93). -/
def immOperand (imm5 : BitVec 5) : Word := sext imm5

/-- PC-relative: `pc + sext_9(offset9)`. -/
def State.pcRel9 (s : State) (offset9 : BitVec 9) : Word := s.pc + sext offset9

/-- The target of JSR: `pc + sext_11(offset11)`. -/
def State.pcRel11 (s : State) (offset11 : BitVec 11) : Word := s.pc + sext offset11

/-- Base plus offset: `x[BaseR] + sext_6(offset6)`. -/
def State.basePlus6 (s : State) (base : Reg) (offset6 : BitVec 6) : Word :=
  s.reg base + sext offset6

end Sys2Proof.Machine
end

