-- ==== Sys2Proof/Machine/Control.lean ====
section
/-! DEFINITION. BR, JMP, JSR, JSRR (41_control.md). -/

namespace Sys2Proof.Machine

open Sys2Proof

/-- BR (41_control.md R120). -/
def execBr (n z p : Bool) (offset9 : BitVec 9) (s : State) :
    Host.Outcome State Fault Refusal :=
  .next (if brTaken (brMask n z p) s.cond then s.setPc (s.pcRel9 offset9) else s)

/-- JMP (41_control.md R121). -/
def execJmp (baseR : Reg) (s : State) : Host.Outcome State Fault Refusal :=
  .next (s.setPc (s.reg baseR))

/-- JSR: R7 gets the return address, `pc` on the right is the incremented value (41_control.md R122). -/
def execJsr (offset11 : BitVec 11) (s : State) : Host.Outcome State Fault Refusal :=
  .next ((s.writeReg .r7 s.pc).setPc (s.pcRel11 offset11))

/-- JSRR: R7 is written first, then BaseR is read, so `JSRR R7` falls through (41_control.md R123). -/
def execJsrr (baseR : Reg) (s : State) : Host.Outcome State Fault Refusal :=
  .next ((s.writeReg .r7 s.pc).setPc ((s.writeReg .r7 s.pc).reg baseR))

end Sys2Proof.Machine
end

