-- ==== Sys2Proof/Machine/Illegal.lean ====
section
/-! DEFINITION. The illegal opcodes RTI and RES (44_illegal.md): each takes the illegal-opcode fault
the spec describes, a next state (log 11). -/

namespace Sys2Proof.Machine

/-- RTI, opcode 1000 (44_illegal.md R170). -/
def execRti (s : State) : Host.Outcome State Fault Refusal :=
  .next (s.raiseIllegalOpcode 0b1000#4)

/-- RES, opcode 1101 (44_illegal.md R171). -/
def execRes (s : State) : Host.Outcome State Fault Refusal :=
  .next (s.raiseIllegalOpcode 0b1101#4)

end Sys2Proof.Machine
end

