-- ==== Sys2Proof/Machine/LoadStore.lean ====
section
/-! DEFINITION. LD, LDI, LDR, LEA, ST, STI, STR (42_load_store.md). -/

namespace Sys2Proof.Machine

open Sys2Proof

/-- `x[DR] <- MemRead(ea, 16); setcc(DR)`. -/
def State.loadFrom (s : State) (dr : Reg) (ea : Word) : State :=
  (s.memRead ea).2.writeResult dr (s.memRead ea).1

/-- LD (42_load_store.md R130). -/
def execLd (dr : Reg) (offset9 : BitVec 9) (s : State) : Host.Outcome State Fault Refusal :=
  .next (s.loadFrom dr (s.pcRel9 offset9))

/-- LDI: the pointer is read first, then the data (42_load_store.md R131). -/
def execLdi (dr : Reg) (offset9 : BitVec 9) (s : State) : Host.Outcome State Fault Refusal :=
  .next ((s.memRead (s.pcRel9 offset9)).2.loadFrom dr (s.memRead (s.pcRel9 offset9)).1)

/-- LDR: the base is read before DR is written (42_load_store.md R132). -/
def execLdr (dr baseR : Reg) (offset6 : BitVec 6) (s : State) :
    Host.Outcome State Fault Refusal :=
  .next (s.loadFrom dr (s.basePlus6 baseR offset6))

/-- LEA: the address, not memory content; the flags are set (42_load_store.md R133). -/
def execLea (dr : Reg) (offset9 : BitVec 9) (s : State) : Host.Outcome State Fault Refusal :=
  .next (s.writeResult dr (s.pcRel9 offset9))

/-- ST (42_load_store.md R134). -/
def execSt (sr : Reg) (offset9 : BitVec 9) (s : State) : Host.Outcome State Fault Refusal :=
  .next (s.memWrite (s.pcRel9 offset9) (s.reg sr))

/-- STI: the pointer read, then the store (42_load_store.md R135). -/
def execSti (sr : Reg) (offset9 : BitVec 9) (s : State) : Host.Outcome State Fault Refusal :=
  .next ((s.memRead (s.pcRel9 offset9)).2.memWrite (s.memRead (s.pcRel9 offset9)).1 (s.reg sr))

/-- STR (42_load_store.md R136). -/
def execStr (sr baseR : Reg) (offset6 : BitVec 6) (s : State) :
    Host.Outcome State Fault Refusal :=
  .next (s.memWrite (s.basePlus6 baseR offset6) (s.reg sr))

end Sys2Proof.Machine
end

