-- ==== Sys2Proof/Machine/Operate.lean ====
section
/-! DEFINITION. ADD, AND, NOT (40_operate.md). -/

namespace Sys2Proof.Machine

open Sys2Proof

/-- ADD, register form (40_operate.md R110). -/
def execAddReg (dr sr1 sr2 : Reg) (s : State) : Host.Outcome State Fault Refusal :=
  .next (s.writeResult dr (s.reg sr1 + s.reg sr2))

/-- ADD, immediate form (40_operate.md R110). -/
def execAddImm (dr sr1 : Reg) (imm5 : BitVec 5) (s : State) :
    Host.Outcome State Fault Refusal :=
  .next (s.writeResult dr (s.reg sr1 + immOperand imm5))

/-- AND, register form (40_operate.md R111). -/
def execAndReg (dr sr1 sr2 : Reg) (s : State) : Host.Outcome State Fault Refusal :=
  .next (s.writeResult dr (s.reg sr1 &&& s.reg sr2))

/-- AND, immediate form: the immediate is sign-extended before the AND (40_operate.md R111). -/
def execAndImm (dr sr1 : Reg) (imm5 : BitVec 5) (s : State) :
    Host.Outcome State Fault Refusal :=
  .next (s.writeResult dr (s.reg sr1 &&& immOperand imm5))

/-- NOT (40_operate.md R112). -/
def execNot (dr sr : Reg) (s : State) : Host.Outcome State Fault Refusal :=
  .next (s.writeResult dr (~~~(s.reg sr)))

end Sys2Proof.Machine
end

