-- ==== Sys2Proof/Machine/Trap.lean ====
section
/-! DEFINITION. TRAP and the six service routines the core performs itself (43_trap.md). Every one
begins with `State.enterTrap` and leaves `pc` at its incremented value (R150). -/

namespace Sys2Proof.Machine

open Sys2Proof

/-- `x[0] <- zext_8(c); setcc(0)`: how GETC and IN end (43_trap.md R152, R155). -/
def State.storeChar (s : State) (c : Byte) : State := s.writeResult .r0 (zext8 c)

/-- GETC (43_trap.md R152). A read that would block holds the instruction: no effect of it happens
(45_execution_cycle.md R187). -/
def execTrapGetc (s : State) : Host.Outcome State Fault Refusal :=
  match (s.enterTrap.writeChars s.config.getcPrompt).readChar with
  | some (c, s') => .next (s'.storeChar c)
  | none => .next s.holdInstruction

/-- OUT (43_trap.md R153). -/
def execTrapOut (s : State) : Host.Outcome State Fault Refusal :=
  .next (s.enterTrap.writeChar (lowByte (s.enterTrap.reg .r0)))

/-- A string routine: the walk from `x[0]` after TRAP entry; a walk with no end is `stuck`
(93_implementation_defined.md U10). -/
def State.runStringRoutine (emit : Word → List Byte × Bool) (s : State) :
    Host.Outcome State Fault Refusal :=
  match State.walkString emit s.enterTrap.walkFuel (s.enterTrap.reg .r0) s.enterTrap with
  | some s' => .next s'
  | none => .fault .stringNeverEnds

/-- PUTS (43_trap.md R154). -/
def execTrapPuts (s : State) : Host.Outcome State Fault Refusal :=
  s.runStringRoutine putsCell

/-- IN: prompt, read, echo, store, flags, in that order (43_trap.md R155); blocked as GETC. -/
def execTrapIn (s : State) : Host.Outcome State Fault Refusal :=
  match (s.enterTrap.writeChars s.config.inPrompt).readChar with
  | some (c, s') => .next ((s'.writeChar c).storeChar c)
  | none => .next s.holdInstruction

/-- PUTSP (43_trap.md R156). -/
def execTrapPutsp (s : State) : Host.Outcome State Fault Refusal :=
  s.runStringRoutine (putspCell s.config.putspZeroHighStops)

/-- HALT (43_trap.md R157). -/
def execTrapHalt (s : State) : Host.Outcome State Fault Refusal :=
  .next (s.enterTrap.writeChars s.config.haltNotice).flush.halt

/-- A vector with no TrapTable entry: R7 is written, the anomaly is reported, execution goes on
(43_trap.md R158). -/
def execTrapUnhandled (trapvect8 : BitVec 8) (s : State) : Host.Outcome State Fault Refusal :=
  .next (s.enterTrap.reportUnhandledTrap trapvect8)

end Sys2Proof.Machine
end

