-- ==== Sys2Proof/Machine/Step.lean ====
section
/-! DEFINITION. One step of the core (45_execution_cycle.md R181). -/

namespace Sys2Proof.Machine

open Sys2Proof

/-- One step. A terminal state and a held core have no step in the spec: the model's step leaves the
state as it is (DESIGN CHOICE, log 3, log 4). -/
def step (s : State) : Host.Outcome State Fault Refusal :=
  match s.cycleAction with
  | .stopped => .next s
  | .interrupt => .next s.takeInterrupt
  | .hold => .next s
  | .execute => exec (decodeWord s.fetch.1) s.fetch.2

/-- The state in which the very next step runs the instruction of the table word `w` (log 12). -/
def State.withFetchWord (s : State) (nbits w : Nat) : State :=
  s.placeWord (BitVec.ofNat 16 (w % 2 ^ nbits))

end Sys2Proof.Machine
end

