-- ==== Sys2Proof/Machine/Environment.lean ====
section
/-! DEFINITION. The second agent, the host (45_execution_cycle.md R180): image load before the first
step, its acts between steps, what it can read, and the states the two agents together can reach. -/

namespace Sys2Proof.Machine

open Sys2Proof

/-- A program image, the pair "(origin, sequence of 16-bit words)" (45_execution_cycle.md R193). -/
structure Image where
  origin : Word
  words : List Word
  deriving DecidableEq, Repr

/-- Raw writes of cells from address `k` on; words past the top of memory are not loaded
(70_reset_and_hazards.md R224, decision D24). -/
def Memory.loadWords (m : Memory) (k : Nat) : List Word → Memory
  | [] => m
  | w :: rest =>
    if k < 65536 then Memory.loadWords (m.writeCell (BitVec.ofNat 16 k) w) (k + 1) rest else m

/-- The effect of one image: memory only (70_reset_and_hazards.md R224). -/
def State.loadImage (s : State) (im : Image) : State :=
  { s with mem := s.mem.loadWords im.origin.toNat im.words }

/-- Reset with the machine's parameters, then the images in order (70_reset_and_hazards.md R224). -/
def boot (c : Config) (images : List Image) : State :=
  images.foldl State.loadImage { State.reset with config := c }

/-- What the host can do to a machine that has begun to run (45_execution_cycle.md R180). -/
inductive HostAction where
  /-- append a character to the console input queue -/
  | appendChar (c : Byte)
  /-- set the external-interrupt pending bit -/
  | raiseInterrupt
  /-- end the input for good (the case `EOF_BEHAVIOUR` is about, 45_execution_cycle.md R187; log 7) -/
  | endInput
  deriving DecidableEq, Repr

/-- A host act's effect. "The host never writes registers, PC, COND or memory while RUN = RUNNING"
(45_execution_cycle.md R180). An input that has ended gets no more characters (log 7). -/
def HostAction.apply (a : HostAction) (s : State) : State :=
  match a with
  | .appendChar c => if s.inputEnded then s else { s with input := s.input ++ [c] }
  | .raiseInterrupt => { s with irqPending := true }
  | .endInput => { s with inputEnded := true }

/-- The states that boot, core steps and host acts reach, in any interleaving: a host act may come
before any step (93_implementation_defined.md U14, U15; 60_exceptions.md R205). -/
inductive Reachable : State → Prop where
  | afterBoot (c : Config) (images : List Image) : Reachable (boot c images)
  | afterStep (s t : State) : Reachable s → step s = .next t → Reachable t
  | afterHost (s : State) (a : HostAction) : Reachable s → Reachable (a.apply s)

/-- The status outputs (45_execution_cycle.md R192). -/
structure HostStatus where
  run : RunState
  fault : Option FaultRecord
  anomalies : List Anomaly
  deriving DecidableEq, Repr

/-- What the host reads "at any time and without effect": the fault record only when RUN = FAULTED
(45_execution_cycle.md R192). -/
def State.status (s : State) : HostStatus where
  run := s.run
  fault := if s.run = .faulted then s.fault else none
  anomalies := s.anomalies

end Sys2Proof.Machine
end

