-- ==== Sys2Proof/Safety.lean ====
section
/-! DEFINITION. The terms statements are made in: what a good state is, how a run ends, what an
instruction leaves unchanged, and the loops of PUTS and PUTSP as the spec writes them. -/

namespace Sys2Proof.Machine

open Sys2Proof

/-! ## Good states -/

/-- The fault record is valid exactly in FAULTED, and then names the illegal word just fetched
(10_state.md R29, 60_exceptions.md R201). -/
def State.faultConsistent (s : State) : Bool :=
  match s.run, s.fault with
  | .faulted, some r =>
    s.pc == r.addr + 1#16 && (r.opcode == 0b1000#4 || r.opcode == 0b1101#4) &&
      opcodeField (s.cell r.addr) == r.opcode
  | .faulted, none => false
  | _, some _ => false
  | _, none => true

/-- The invariant every run keeps: COND one-hot (10_state.md R26), memory canonical (log 2), the
fault record consistent, and only unhandled vectors in the anomaly log (10_state.md R30). -/
def State.Inv (s : State) : Prop :=
  condOneHot s.cond = true ∧ s.mem.wf = true ∧ s.faultConsistent = true ∧
    s.anomalies.all (fun a => !isHandledVector a.vector) = true

/-- A run has ended when RUN is not RUNNING (45_execution_cycle.md R185). -/
def State.ended (s : State) : Prop := s.run ≠ .running

/-- "HALTED is the only clean ending" (45_execution_cycle.md R185). -/
def State.endedCleanly (s : State) : Prop := s.run = .halted

/-- No unhandled TRAP was reported (93_implementation_defined.md U3). -/
def State.noAnomaly (s : State) : Prop := s.anomalies = []

/-! ## What stays unchanged -/

/-- The flags register holds the flag of `v` read as a two's-complement number (10_state.md R26). -/
def SignFlag (v : Word) (c : BitVec 3) : Prop :=
  (v.toInt = 0 → c = flZ) ∧ (v.toInt < 0 → c = flN) ∧ (0 < v.toInt → c = flP)

/-- Every register but those listed. -/
def SameRegsExcept (ds : List Reg) (s t : State) : Prop := ∀ r, r ∉ ds → t.reg r = s.reg r

/-- Every cell of memory but those listed. -/
def SameCellsExcept (as : List Word) (s t : State) : Prop := ∀ a, a ∉ as → t.cell a = s.cell a

/-- The run state and the fault record. -/
def SameRun (s t : State) : Prop := t.run = s.run ∧ t.fault = s.fault

/-- What only the host writes, and the reports. -/
def SameHostSide (s t : State) : Prop :=
  t.anomalies = s.anomalies ∧ t.inputEnded = s.inputEnded ∧ t.irqPending = s.irqPending ∧
    t.config = s.config

/-- The console queues. -/
def SameConsole (s t : State) : Prop := t.input = s.input ∧ t.output = s.output

/-- Everything outside the registers, PC, COND, memory and the console. -/
def SameRest (s t : State) : Prop := SameRun s t ∧ SameHostSide s t

/-- What a register-only instruction leaves: all of memory, the console and the rest. -/
def SameOutsideCpu (s t : State) : Prop :=
  t.mem = s.mem ∧ SameCellsExcept [] s t ∧ SameConsole s t ∧ SameRest s t

/-- What the bus reads of a loading instruction leave, given the addresses read: every cell if none
of them is KBSR, else every cell but KBSR and KBDR; the output; the rest. -/
def SameOutsideReads (reads : List Word) (s t : State) : Prop :=
  (kbsrAddr ∉ reads → SameCellsExcept [] s t ∧ t.input = s.input) ∧
    SameCellsExcept [kbsrAddr, kbdrAddr] s t ∧ t.output = s.output ∧ SameRest s t

/-- The effect of an instruction that computes `v` in a register: DR, COND from `v`, nothing else. -/
def RegisterResult (s t : State) (dr : Reg) (v : Word) : Prop :=
  t.reg dr = v ∧ SignFlag v t.cond ∧ SameRegsExcept [dr] s t ∧ t.pc = s.pc ∧ SameOutsideCpu s t

/-- The effect of a control instruction: PC, the registers `ds`, nothing else. -/
def ControlEffect (s t : State) (target : Word) (ds : List Reg) : Prop :=
  t.pc = target ∧ t.cond = s.cond ∧ SameRegsExcept ds s t ∧ SameOutsideCpu s t

/-- The effect of a load whose last bus read gave `last` (value and state) and whose bus reads were
at the addresses `reads`. -/
def LoadEffect (s t : State) (dr : Reg) (last : Word × State) (reads : List Word) : Prop :=
  t.reg dr = last.1 ∧ SignFlag last.1 t.cond ∧ SameRegsExcept [dr] s t ∧ t.pc = s.pc ∧
    t.mem = last.2.mem ∧ t.input = last.2.input ∧ SameOutsideReads reads s t

/-- What a store leaves besides memory and the queue: every register, PC, COND, output, the rest. -/
def StoreFrame (s t : State) : Prop :=
  SameRegsExcept [] s t ∧ t.pc = s.pc ∧ t.cond = s.cond ∧ t.output = s.output ∧ SameRest s t

/-- What every TRAP that runs to its end does: R7 holds the return address, PC stays at it, every
register but R7 and `ds` is as before (43_trap.md R150, R159). -/
def TrapEntryEffect (s t : State) (ds : List Reg) : Prop :=
  t.reg .r7 = s.pc ∧ SameRegsExcept (.r7 :: ds) s t ∧ t.pc = s.pc

/-- The effect of GETC or IN that reads `c`, leaves the queue `rest` and writes `out`. -/
def ReadRoutineEffect (s t : State) (c : Byte) (rest out : List Byte) : Prop :=
  TrapEntryEffect s t [.r0] ∧ t.reg .r0 = c.setWidth 16 ∧
    t.cond = (if c = 0#8 then flZ else flP) ∧ t.mem = s.mem ∧ SameCellsExcept [] s t ∧
    t.input = rest ∧ t.output = s.output ++ out ∧ SameRest s t

/-- The effect of a routine that writes `out` and reads no character; `run` is the run state after. -/
def WriteRoutineEffect (s t : State) (out : List Byte) (run : RunState) : Prop :=
  TrapEntryEffect s t [] ∧ t.cond = s.cond ∧ t.mem = s.mem ∧ SameCellsExcept [] s t ∧
    t.input = s.input ∧ t.output = s.output ++ out ∧ t.run = run ∧ t.fault = s.fault ∧
    SameHostSide s t

/-- What a string walk leaves: its bus reads may poll the keyboard, nothing else is touched. -/
def StringRoutineFrame (s t : State) : Prop :=
  TrapEntryEffect s t [] ∧ t.cond = s.cond ∧ SameCellsExcept [kbsrAddr, kbdrAddr] s t ∧
    SameRest s t

/-- A fetch at `a` from state `t` gives `v`, the very next fetch where `a` is PC (20_memory.md R66). -/
def FetchGives (t : State) (a v : Word) : Prop :=
  (t.setPc a).fetch.1 = v ∧ (a = t.pc → t.fetch.1 = v)

/-! ## What each instruction form reads and writes, as the spec's tables say -/

/-- The registers an instruction form may write (10_state.md R21). -/
def writesRegs : Instr → List Reg
  | .addReg dr _ _ | .addImm dr _ _ | .andReg dr _ _ | .andImm dr _ _ | .not dr _ | .ld dr _
  | .ldi dr _ | .ldr dr _ _ | .lea dr _ => [dr]
  | .jsr _ | .jsrr _ | .trapOut | .trapPuts | .trapPutsp | .trapHalt | .trapUnhandled _ => [.r7]
  | .trapGetc | .trapIn => [.r7, .r0]
  | .br _ _ _ _ | .jmp _ | .st _ _ | .sti _ _ | .str _ _ _ | .rti | .res => []

/-- The registers an instruction form reads (10_state.md R21). -/
def readsRegs : Instr → List Reg
  | .addReg _ sr1 sr2 | .andReg _ sr1 sr2 => [sr1, sr2]
  | .addImm _ sr _ | .andImm _ sr _ | .not _ sr => [sr]
  | .jmp base | .jsrr base | .ldr _ base _ => [base]
  | .st sr _ | .sti sr _ => [sr]
  | .str sr base _ => [sr, base]
  | .trapOut | .trapPuts | .trapPutsp => [.r0]
  | .br _ _ _ _ | .jsr _ | .ld _ _ | .ldi _ _ | .lea _ _ | .trapGetc | .trapIn | .trapHalt
  | .trapUnhandled _ | .rti | .res => []

/-- The register whose value COND is set from, for the forms that set it (10_state.md R27). -/
def flagReg : Instr → Option Reg
  | .addReg dr _ _ | .addImm dr _ _ | .andReg dr _ _ | .andImm dr _ _ | .not dr _ | .ld dr _
  | .ldi dr _ | .ldr dr _ _ | .lea dr _ => some dr
  | .trapGetc | .trapIn => some .r0
  | .jsr _ | .jsrr _ | .trapOut | .trapPuts | .trapPutsp | .trapHalt | .trapUnhandled _
  | .br _ _ _ _ | .jmp _ | .st _ _ | .sti _ _ | .str _ _ _ | .rti | .res => none

/-- BR, the one form that reads COND (10_state.md R27). -/
def readsCond : Instr → Bool
  | .br _ _ _ _ => true
  | .addReg _ _ _ | .addImm _ _ _ | .andReg _ _ _ | .andImm _ _ _ | .not _ _ | .ld _ _
  | .ldi _ _ | .ldr _ _ _ | .lea _ _ | .jsr _ | .jsrr _ | .trapGetc | .trapOut | .trapPuts
  | .trapIn | .trapPutsp | .trapHalt | .trapUnhandled _ | .jmp _ | .st _ _ | .sti _ _
  | .str _ _ _ | .rti | .res => false

/-- The PC after an instruction, given the incremented PC (10_state.md R24). -/
def pcAfter (i : Instr) (s : State) : Word :=
  match i with
  | .br n z p offset9 => if brMask n z p &&& s.cond ≠ 0#3 then s.pc + sext offset9 else s.pc
  | .jmp base => s.reg base
  | .jsr offset11 => s.pc + sext offset11
  | .jsrr base => if base = .r7 then s.pc else s.reg base
  | .addReg _ _ _ | .addImm _ _ _ | .andReg _ _ _ | .andImm _ _ _ | .not _ _ | .ld _ _
  | .ldi _ _ | .ldr _ _ _ | .lea _ _ | .st _ _ | .sti _ _ | .str _ _ _ | .trapGetc | .trapOut
  | .trapPuts | .trapIn | .trapPutsp | .trapHalt | .trapUnhandled _ | .rti | .res => s.pc

/-- The TRAP forms (43_trap.md R150). -/
def isTrap : Instr → Bool
  | .trapGetc | .trapOut | .trapPuts | .trapIn | .trapPutsp | .trapHalt | .trapUnhandled _ => true
  | .addReg _ _ _ | .addImm _ _ _ | .andReg _ _ _ | .andImm _ _ _ | .not _ _ | .ld _ _
  | .ldi _ _ | .ldr _ _ _ | .lea _ _ | .jsr _ | .jsrr _ | .br _ _ _ _ | .jmp _ | .st _ _
  | .sti _ _ | .str _ _ _ | .rti | .res => false

/-- The forms that call `read_char()`: GETC and IN (43_trap.md R151). -/
def callsReadChar : Instr → Bool
  | .trapGetc | .trapIn => true
  | .addReg _ _ _ | .addImm _ _ _ | .andReg _ _ _ | .andImm _ _ _ | .not _ _ | .ld _ _
  | .ldi _ _ | .ldr _ _ _ | .lea _ _ | .jsr _ | .jsrr _ | .br _ _ _ _ | .jmp _ | .st _ _
  | .sti _ _ | .str _ _ _ | .trapOut | .trapPuts | .trapPutsp | .trapHalt | .trapUnhandled _
  | .rti | .res => false

/-- The forms that read memory as data (20_memory.md R52, R59). -/
def readsMemory : Instr → Bool
  | .ld _ _ | .ldi _ _ | .ldr _ _ _ | .sti _ _ | .trapPuts | .trapPutsp => true
  | .addReg _ _ _ | .addImm _ _ _ | .andReg _ _ _ | .andImm _ _ _ | .not _ _ | .lea _ _
  | .jsr _ | .jsrr _ | .trapGetc | .trapOut | .trapIn | .trapHalt | .trapUnhandled _
  | .br _ _ _ _ | .jmp _ | .st _ _ | .str _ _ _ | .rti | .res => false

/-- The address a store form stores to; none for a form that stores nothing (20_memory.md R59). -/
def storesTo (i : Instr) (s : State) : Option Word :=
  match i with
  | .st _ offset9 => some (s.pcRel9 offset9)
  | .sti _ offset9 => some (s.memRead (s.pcRel9 offset9)).1
  | .str _ base offset6 => some (s.basePlus6 base offset6)
  | .addReg _ _ _ | .addImm _ _ _ | .andReg _ _ _ | .andImm _ _ _ | .not _ _ | .lea _ _
  | .ld _ _ | .ldi _ _ | .ldr _ _ _ | .jsr _ | .jsrr _ | .trapGetc | .trapOut | .trapPuts
  | .trapIn | .trapPutsp | .trapHalt | .trapUnhandled _ | .br _ _ _ _ | .jmp _ | .rti
  | .res => none

/-! ## The loops of the string routines, as relations -/

/-- The loop of PUTS from pointer `a`, line by line (43_trap.md R154): `PutsLoop a s t` when it ends,
and ends in `t`. -/
inductive PutsLoop : Word → State → State → Prop where
  | zeroCell (a : Word) (s : State) : (s.memRead a).1 = 0#16 → PutsLoop a s (s.memRead a).2
  | cell (a : Word) (s t : State) : (s.memRead a).1 ≠ 0#16 →
      PutsLoop (a + 1#16) ((s.memRead a).2.writeChar ((s.memRead a).1.extractLsb' 0 8)) t →
      PutsLoop a s t

/-- The loop of PUTSP from pointer `a`, line by line (43_trap.md R156). -/
inductive PutspLoop : Word → State → State → Prop where
  | zeroCell (a : Word) (s : State) : (s.memRead a).1 = 0#16 → PutspLoop a s (s.memRead a).2
  | bothBytes (a : Word) (s t : State) : (s.memRead a).1 ≠ 0#16 →
      (s.memRead a).1.extractLsb' 8 8 ≠ 0#8 →
      PutspLoop (a + 1#16)
        (((s.memRead a).2.writeChar ((s.memRead a).1.extractLsb' 0 8)).writeChar
          ((s.memRead a).1.extractLsb' 8 8)) t →
      PutspLoop a s t
  | lowByteOnly (a : Word) (s t : State) : (s.memRead a).1 ≠ 0#16 →
      (s.memRead a).1.extractLsb' 8 8 = 0#8 → s.config.putspZeroHighStops = false →
      PutspLoop (a + 1#16) ((s.memRead a).2.writeChar ((s.memRead a).1.extractLsb' 0 8)) t →
      PutspLoop a s t
  | zeroHighStops (a : Word) (s : State) : (s.memRead a).1 ≠ 0#16 →
      (s.memRead a).1.extractLsb' 8 8 = 0#8 → s.config.putspZeroHighStops = true →
      PutspLoop a s ((s.memRead a).2.writeChar ((s.memRead a).1.extractLsb' 0 8))

/-- The bytes PUTSP writes for the non-zero cells `ws` of a string (43_trap.md R156). -/
def packedBytes (zeroHighStops : Bool) : List Word → List Byte
  | [] => []
  | w :: ws =>
    if w.extractLsb' 8 8 ≠ 0#8 then
      w.extractLsb' 0 8 :: w.extractLsb' 8 8 :: packedBytes zeroHighStops ws
    else if zeroHighStops then [w.extractLsb' 0 8]
    else w.extractLsb' 0 8 :: packedBytes zeroHighStops ws

/-- The cells from address `a` on hold `ws` and then a zero cell, none of them KBSR, and no cell of
`ws` is zero: a string in ordinary memory. -/
def StringAt (s : State) (a : Word) : List Word → Prop
  | [] => a ≠ kbsrAddr ∧ s.cell a = 0#16
  | w :: ws => a ≠ kbsrAddr ∧ s.cell a = w ∧ w ≠ 0#16 ∧ StringAt s (a + 1#16) ws

end Sys2Proof.Machine
end

