-- ==== Sys2Proof/Certificates/Slice0/Obligations.lean ====
section
/-! DEFINITION. The statements for the provers, from the spec's numbered rules. `s` of a statement
about `exec` is the state after the fetch, so `s.pc` is the incremented PC (00_scope.md R7). A
statement about all states holds for every value of `s.config`, so for every parameter of R5. The bits
a decoding clause names are those the rule itself gives; that the original hardware has them there is
the spec's own decision (D1 to D4, log 1). -/

open Sys2Proof Sys2Proof.Machine

/-! ## Reset and invariants -/

/-- 10_state.md R38: what reset leaves. The input queue, which the rule leaves to the host, and the
parameters are not claimed. -/
def Obligations.ResetLeavesSpecValues : Prop :=
  (∀ r, State.reset.reg r = 0x0000#16) ∧ State.reset.pc = 0x3000#16 ∧ State.reset.cond = flZ ∧
    (∀ a, State.reset.cell a = 0x0000#16) ∧ State.reset.run = .running ∧
    State.reset.fault = none ∧ State.reset.anomalies = [] ∧ State.reset.output = [] ∧
    State.reset.irqPending = false

/-- The invariant holds at reset. Memory's canonical form is the model's choice (log 2), the fault
record as an option too (log 13). -/
def Obligations.ResetMeetsInvariant : Prop := State.reset.Inv

/-- Every step keeps the invariant: COND one-hot, memory canonical, the fault record valid exactly in
FAULTED and naming the illegal word at FAULT_ADDR with PC one past it, only unhandled vectors
reported. Rests on the model's choices of log 2, 3, 4 and 13. -/
def Obligations.StepKeepsInvariant : Prop :=
  ∀ s t : State, s.Inv → step s = .next t → t.Inv

/-- The invariant holds in every state that boot, core steps and host acts reach in any interleaving,
whatever the images and the parameters. The interleaving is log 9's, the empty queue at boot log 8's;
the invariant and the step rest on the model's choices of log 2, 3, 4 and 13. -/
def Obligations.ReachableStatesMeetInvariant : Prop := ∀ s : State, Reachable s → s.Inv

/-- Equal memories are equal data: two canonical memories with the same cells are the same list. The
canonical form is the model's choice (log 2). -/
def Obligations.CanonicalMemoryIsDeterminedByCells : Prop :=
  ∀ m m' : Memory, m.wf = true → m'.wf = true → (∀ a : Word, m.readCell a = m'.readCell a) → m = m'

/-! ## Encoding -/

/-- Decoding the word of any well-formed instruction gives it back, whatever its operands: through
the word decoder, the stream decoder and the table-word decoder. The values an encoder writes in
ignored bits are log 14's. -/
def Obligations.EncodedInstructionDecodesToItself : Prop :=
  ∀ i : Instr, i.wellFormed = true →
    decodeWord (encode i) = i ∧
    (∀ rest, decode (encode i :: rest) = .ok (i, rest)) ∧
    decodeTableWord 16 (encode i).toNat = some i

/-- Every one of the 65,536 words decodes to a well-formed instruction whose table row selects the
word, and no other row does but the fallback row. -/
def Obligations.EveryWordDecodesToItsOneTableRow : Prop :=
  opcodeTable.length = 25 ∧ ∀ w : Word,
    (decodeWord w).wellFormed = true ∧ (decodeWord w).row ∈ opcodeTable ∧
    (decodeWord w).row.selects w = true ∧
    ∀ r ∈ opcodeTable, r.selects w = true → r.fallback = false → r = (decodeWord w).row

/-- Ignored bits and no others are ignored: two words decode alike exactly when they agree on the
bits the instruction uses. That ignored bits are accepted is the spec's own decision D4. -/
def Obligations.ExactlyTheIgnoredBitsAreIgnored : Prop :=
  ∀ w w' : Word, decodeWord w = decodeWord w' ↔
    w &&& (decodeWord w).usedBits = w' &&& (decodeWord w).usedBits

/-- The worked words of the rules' examples, one of every family. -/
def Obligations.ExampleWordsDecodeAsTheSpecSays : Prop :=
  decodeWord 0x1025#16 = .addImm .r0 .r0 5#5 ∧ decodeWord 0x1401#16 = .addReg .r2 .r0 .r1 ∧
    decodeWord 0x5020#16 = .andImm .r0 .r0 0#5 ∧ decodeWord 0x927F#16 = .not .r1 .r1 ∧
    decodeWord 0x03FD#16 = .br false false true 0x1FD#9 ∧ decodeWord 0xC1C0#16 = .jmp .r7 ∧
    decodeWord 0x4802#16 = .jsr 2#11 ∧ decodeWord 0x41C0#16 = .jsrr .r7 ∧
    decodeWord 0x2201#16 = .ld .r1 1#9 ∧ decodeWord 0x7442#16 = .str .r2 .r1 2#6 ∧
    decodeWord 0xF025#16 = .trapHalt ∧ decodeWord 0xF0FF#16 = .trapUnhandled 0xFF#8 ∧
    decodeWord 0x8FFF#16 = .rti ∧ decodeWord 0xDABC#16 = .res

/-- Sign extension of the four field widths: the value is kept as a two's-complement number, and the
bits are those of the pseudocode primitive `sext_N`. -/
def Obligations.SignExtensionKeepsTheSignedValue : Prop :=
  ∀ n : Nat, n = 5 ∨ n = 6 ∨ n = 9 ∨ n = 11 → ∀ v : BitVec n,
    (sext v).toInt = v.toInt ∧
    sext v = if v.getLsbD (n - 1) then v.setWidth 16 + (0xFFFF#16 <<< n) else v.setWidth 16

/-! ## Flags -/

/-- 10_state.md R26: `setcc(i)` sets COND from the current value of R*i*, by zero, top bit, and so by
sign; it changes nothing else; exactly one flag is set after it; and since reset is one-hot and
nothing else writes COND, no instruction and no step leaves COND other than one-hot. -/
def Obligations.SetccGivesTheSignFlag : Prop :=
  (∀ (s : State) (i : Reg),
    (s.reg i = 0x0000#16 → (s.setcc i).cond = flZ) ∧
    (s.reg i ≠ 0x0000#16 → (s.reg i).getLsbD 15 = true → (s.setcc i).cond = flN) ∧
    (s.reg i ≠ 0x0000#16 → (s.reg i).getLsbD 15 = false → (s.setcc i).cond = flP) ∧
    SignFlag (s.reg i) (s.setcc i).cond ∧ condOneHot (s.setcc i).cond = true ∧
    s.setcc i = { s with cond := (s.setcc i).cond }) ∧
  condOneHot State.reset.cond = true ∧
  (∀ (i : Instr) (s t : State), condOneHot s.cond = true → exec i s = .next t →
    condOneHot t.cond = true) ∧
  ∀ s t : State, condOneHot s.cond = true → step s = .next t → condOneHot t.cond = true

/-- Which forms set COND and from which register, the others leave it; only BR's outcome depends on it;
reset (10_state.md, what writes and what reads COND). That exec of a held GETC or IN answers a state, with
COND as it was, is the model's choice of log 4. -/
def Obligations.CondIsWrittenAndReadOnlyByTheListedForms : Prop :=
  (∀ (i : Instr) (s t : State), exec i s = .next t →
    match flagReg i with
    | none => t.cond = s.cond
    | some r => SignFlag (t.reg r) t.cond ∨
        (callsReadChar i = true ∧ s.wouldBlock = true ∧ t.cond = s.cond)) ∧
  (∀ (i : Instr) (s t : State) (c : BitVec 3), readsCond i = false → exec i s = .next t →
    ∃ t', exec i { s with cond := c } = .next t' ∧ { t' with cond := t.cond } = t) ∧
  State.reset.cond = flZ

/-! ## Operate instructions: addReg, addImm, andReg, andImm, not -/

/-- 40_operate.md R110: ADD, both forms, for every word of opcode 0001 and every state: DR gets the
sum modulo 2^16, COND its sign, nothing else changes. -/
def Obligations.AddPutsTheWrappedSumInDr : Prop :=
  (∀ w : Word, w.extractLsb' 12 4 = 0b0001#4 → decodeWord w =
    if w.getLsbD 5 = false then
      .addReg (Reg.ofBits (w.extractLsb' 9 3)) (Reg.ofBits (w.extractLsb' 6 3))
        (Reg.ofBits (w.extractLsb' 0 3))
    else
      .addImm (Reg.ofBits (w.extractLsb' 9 3)) (Reg.ofBits (w.extractLsb' 6 3))
        (w.extractLsb' 0 5)) ∧
  (∀ (dr sr1 sr2 : Reg) (s : State), ∃ t, exec (.addReg dr sr1 sr2) s = .next t ∧
    RegisterResult s t dr
      (BitVec.ofNat 16 (((s.reg sr1).toNat + (s.reg sr2).toNat) % 65536))) ∧
  (∀ (dr sr1 : Reg) (imm5 : BitVec 5) (s : State), ∃ t, exec (.addImm dr sr1 imm5) s = .next t ∧
    RegisterResult s t dr
      (BitVec.ofNat 16 (((s.reg sr1).toNat + (sext imm5).toNat) % 65536)))

/-- 40_operate.md R111: AND, both forms; the immediate is sign-extended before the AND. -/
def Obligations.AndPutsTheBitwiseAndInDr : Prop :=
  (∀ w : Word, w.extractLsb' 12 4 = 0b0101#4 → decodeWord w =
    if w.getLsbD 5 = false then
      .andReg (Reg.ofBits (w.extractLsb' 9 3)) (Reg.ofBits (w.extractLsb' 6 3))
        (Reg.ofBits (w.extractLsb' 0 3))
    else
      .andImm (Reg.ofBits (w.extractLsb' 9 3)) (Reg.ofBits (w.extractLsb' 6 3))
        (w.extractLsb' 0 5)) ∧
  (∀ (dr sr1 sr2 : Reg) (s : State), ∃ t, exec (.andReg dr sr1 sr2) s = .next t ∧
    RegisterResult s t dr (s.reg sr1 &&& s.reg sr2)) ∧
  (∀ (dr sr1 : Reg) (imm5 : BitVec 5) (s : State), ∃ t, exec (.andImm dr sr1 imm5) s = .next t ∧
    RegisterResult s t dr (s.reg sr1 &&& sext imm5))

/-- 40_operate.md R112: NOT; the complement is also `0xFFFF - x[SR]`. -/
def Obligations.NotPutsTheComplementInDr : Prop :=
  (∀ w : Word, w.extractLsb' 12 4 = 0b1001#4 → decodeWord w =
    .not (Reg.ofBits (w.extractLsb' 9 3)) (Reg.ofBits (w.extractLsb' 6 3))) ∧
  (∀ (dr sr : Reg) (s : State), ∃ t, exec (.not dr sr) s = .next t ∧
    RegisterResult s t dr (~~~(s.reg sr)) ∧ t.reg dr = 0xFFFF#16 - s.reg sr ∧
    t.reg dr = s.reg sr ^^^ 0xFFFF#16)

/-! ## Control instructions: br, jmp, jsr, jsrr -/

/-- 41_control.md R120: BR, by the mask test and, with COND one-hot, by the three pairings. -/
def Obligations.BrBranchesExactlyWhenAMaskedFlagIsSet : Prop :=
  (∀ w : Word, w.extractLsb' 12 4 = 0b0000#4 → decodeWord w =
    .br (w.getLsbD 11) (w.getLsbD 10) (w.getLsbD 9) (w.extractLsb' 0 9)) ∧
  (∀ (n z p : Bool) (offset9 : BitVec 9) (s : State), ∃ t,
    exec (.br n z p offset9) s = .next t ∧
    ControlEffect s t (if brMask n z p &&& s.cond ≠ 0#3 then s.pc + sext offset9 else s.pc) []) ∧
  ∀ (n z p : Bool) (c : BitVec 3), condOneHot c = true →
    (brMask n z p &&& c ≠ 0#3 ↔
      (n = true ∧ c = flN) ∨ (z = true ∧ c = flZ) ∨ (p = true ∧ c = flP))

/-- 41_control.md R121: JMP, and RET with R7. -/
def Obligations.JmpGoesToTheBaseRegister : Prop :=
  (∀ w : Word, w.extractLsb' 12 4 = 0b1100#4 → decodeWord w =
    .jmp (Reg.ofBits (w.extractLsb' 6 3))) ∧
  (∀ (base : Reg) (s : State), ∃ t, exec (.jmp base) s = .next t ∧
    ControlEffect s t (s.reg base) [])

/-- 41_control.md R122: JSR. -/
def Obligations.JsrLinksR7AndJumpsRelative : Prop :=
  (∀ w : Word, w.extractLsb' 12 4 = 0b0100#4 → w.getLsbD 11 = true →
    decodeWord w = .jsr (w.extractLsb' 0 11)) ∧
  (∀ (offset11 : BitVec 11) (s : State), ∃ t, exec (.jsr offset11) s = .next t ∧
    t.reg .r7 = s.pc ∧ ControlEffect s t (s.pc + sext offset11) [.r7])

/-- JSRR; BaseR is read after R7 is written, so `JSRR R7` falls through: the spec's own inference from
the order of effects (41_control.md, the corner case of JSRR; log 17). -/
def Obligations.JsrrLinksR7ThenReadsTheBase : Prop :=
  (∀ w : Word, w.extractLsb' 12 4 = 0b0100#4 → w.getLsbD 11 = false →
    decodeWord w = .jsrr (Reg.ofBits (w.extractLsb' 6 3))) ∧
  (∀ (base : Reg) (s : State), ∃ t, exec (.jsrr base) s = .next t ∧
    t.reg .r7 = s.pc ∧ ControlEffect s t (t.reg base) [.r7] ∧
    (base = .r7 → t.pc = s.pc) ∧ (base ≠ .r7 → t.pc = s.reg base))

/-! ## Data movement: ld, ldi, ldr, lea, st, sti, str -/

/-- 42_load_store.md R130: LD, one bus read. What a bus read does at KBSR is BusReadPollsAtKbsr. -/
def Obligations.LdLoadsThePcRelativeCell : Prop :=
  (∀ w : Word, w.extractLsb' 12 4 = 0b0010#4 → decodeWord w =
    .ld (Reg.ofBits (w.extractLsb' 9 3)) (w.extractLsb' 0 9)) ∧
  (∀ (dr : Reg) (offset9 : BitVec 9) (s : State), ∃ t, exec (.ld dr offset9) s = .next t ∧
    LoadEffect s t dr (s.memRead (s.pc + sext offset9)) [s.pc + sext offset9])

/-- 42_load_store.md R131: LDI, the pointer read, then the data read. -/
def Obligations.LdiLoadsThroughThePointerCell : Prop :=
  (∀ w : Word, w.extractLsb' 12 4 = 0b1010#4 → decodeWord w =
    .ldi (Reg.ofBits (w.extractLsb' 9 3)) (w.extractLsb' 0 9)) ∧
  (∀ (dr : Reg) (offset9 : BitVec 9) (s : State), ∃ t, exec (.ldi dr offset9) s = .next t ∧
    LoadEffect s t dr
      ((s.memRead (s.pc + sext offset9)).2.memRead (s.memRead (s.pc + sext offset9)).1)
      [s.pc + sext offset9, (s.memRead (s.pc + sext offset9)).1])

/-- 42_load_store.md R132: LDR; the base is read before DR is written. -/
def Obligations.LdrLoadsTheBasePlusOffsetCell : Prop :=
  (∀ w : Word, w.extractLsb' 12 4 = 0b0110#4 → decodeWord w =
    .ldr (Reg.ofBits (w.extractLsb' 9 3)) (Reg.ofBits (w.extractLsb' 6 3))
      (w.extractLsb' 0 6)) ∧
  (∀ (dr base : Reg) (offset6 : BitVec 6) (s : State), ∃ t,
    exec (.ldr dr base offset6) s = .next t ∧
    LoadEffect s t dr (s.memRead (s.reg base + sext offset6)) [s.reg base + sext offset6])

/-- 42_load_store.md R133: LEA gives the address, sets the flags and touches no memory. -/
def Obligations.LeaPutsTheAddressInDr : Prop :=
  (∀ w : Word, w.extractLsb' 12 4 = 0b1110#4 → decodeWord w =
    .lea (Reg.ofBits (w.extractLsb' 9 3)) (w.extractLsb' 0 9)) ∧
  (∀ (dr : Reg) (offset9 : BitVec 9) (s : State), ∃ t, exec (.lea dr offset9) s = .next t ∧
    RegisterResult s t dr (s.pc + sext offset9))

/-- 42_load_store.md R134: ST stores SR in the PC-relative cell, every other cell reads as before. -/
def Obligations.StStoresInThePcRelativeCell : Prop :=
  (∀ w : Word, w.extractLsb' 12 4 = 0b0011#4 → decodeWord w =
    .st (Reg.ofBits (w.extractLsb' 9 3)) (w.extractLsb' 0 9)) ∧
  (∀ (sr : Reg) (offset9 : BitVec 9) (s : State), ∃ t, exec (.st sr offset9) s = .next t ∧
    t.cell (s.pc + sext offset9) = s.reg sr ∧ SameCellsExcept [s.pc + sext offset9] s t ∧
    t.input = s.input ∧ StoreFrame s t)

/-- 42_load_store.md R135: STI, the pointer read, then the store; memory after it is memory after the
pointer read but for the cell stored to. -/
def Obligations.StiStoresThroughThePointerCell : Prop :=
  (∀ w : Word, w.extractLsb' 12 4 = 0b1011#4 → decodeWord w =
    .sti (Reg.ofBits (w.extractLsb' 9 3)) (w.extractLsb' 0 9)) ∧
  (∀ (sr : Reg) (offset9 : BitVec 9) (s : State), ∃ t, exec (.sti sr offset9) s = .next t ∧
    t.cell (s.memRead (s.pc + sext offset9)).1 = s.reg sr ∧
    SameCellsExcept [(s.memRead (s.pc + sext offset9)).1]
      (s.memRead (s.pc + sext offset9)).2 t ∧
    t.input = (s.memRead (s.pc + sext offset9)).2.input ∧
    (s.pc + sext offset9 ≠ kbsrAddr →
      SameCellsExcept [(s.memRead (s.pc + sext offset9)).1] s t ∧ t.input = s.input) ∧
    SameCellsExcept [(s.memRead (s.pc + sext offset9)).1, kbsrAddr, kbdrAddr] s t ∧
    StoreFrame s t)

/-- 42_load_store.md R136: STR. -/
def Obligations.StrStoresInTheBasePlusOffsetCell : Prop :=
  (∀ w : Word, w.extractLsb' 12 4 = 0b0111#4 → decodeWord w =
    .str (Reg.ofBits (w.extractLsb' 9 3)) (Reg.ofBits (w.extractLsb' 6 3))
      (w.extractLsb' 0 6)) ∧
  (∀ (sr base : Reg) (offset6 : BitVec 6) (s : State), ∃ t,
    exec (.str sr base offset6) s = .next t ∧
    t.cell (s.reg base + sext offset6) = s.reg sr ∧
    SameCellsExcept [s.reg base + sext offset6] s t ∧ t.input = s.input ∧ StoreFrame s t)

/-! ## TRAP: trapGetc, trapOut, trapPuts, trapIn, trapPutsp, trapHalt, trapUnhandled -/

/-- 43_trap.md R150: the low byte selects the routine, for every word of opcode 1111; and every TRAP
that answers a next state and is not held (log 4) leaves R7 = the return address, PC at it, and COND
to GETC and IN alone. (That each TRAP answers one is said by the statements after this one.) -/
def Obligations.EveryTrapSavesTheReturnAddressInR7 : Prop :=
  (∀ w : Word, w.extractLsb' 12 4 = 0b1111#4 → decodeWord w =
    if w.extractLsb' 0 8 = 0x20#8 then .trapGetc
    else if w.extractLsb' 0 8 = 0x21#8 then .trapOut
    else if w.extractLsb' 0 8 = 0x22#8 then .trapPuts
    else if w.extractLsb' 0 8 = 0x23#8 then .trapIn
    else if w.extractLsb' 0 8 = 0x24#8 then .trapPutsp
    else if w.extractLsb' 0 8 = 0x25#8 then .trapHalt
    else .trapUnhandled (w.extractLsb' 0 8)) ∧
  ∀ (i : Instr) (s t : State), isTrap i = true →
    (callsReadChar i = true → s.wouldBlock = false) → exec i s = .next t →
    TrapEntryEffect s t (writesRegs i) ∧
      (callsReadChar i = false → t.reg .r0 = s.reg .r0 ∧ t.cond = s.cond) ∧
      (callsReadChar i = true → SignFlag (t.reg .r0) t.cond)

/-- GETC, whole: with a character queued; on an ended input under `EOF_BEHAVIOUR = value v`; and
blocked, when exec takes the PC back to the TRAP and nothing else changes (log 4). Rests on the spec's
decisions D15, D19, D20 and on log 7. -/
def Obligations.GetcReadsOneCharacterIntoR0 : Prop :=
  ∀ s : State,
    (∀ c rest, s.input = c :: rest → ∃ t, exec .trapGetc s = .next t ∧
      ReadRoutineEffect s t c rest s.config.getcPrompt) ∧
    (∀ v, s.input = [] → s.inputEnded = true → s.config.eofBehaviour = .value v →
      ∃ t, exec .trapGetc s = .next t ∧ ReadRoutineEffect s t v [] s.config.getcPrompt) ∧
    (s.input = [] → (s.inputEnded = false ∨ s.config.eofBehaviour = .block) →
      exec .trapGetc s = .next { s with pc := s.pc - 1#16 })

/-- IN, whole: prompt, character, echo. Rests on the spec's decisions D14, D19, D20, D27 and on log 4
and log 7. -/
def Obligations.InPromptsReadsAndEchoes : Prop :=
  ∀ s : State,
    (∀ c rest, s.input = c :: rest → ∃ t, exec .trapIn s = .next t ∧
      ReadRoutineEffect s t c rest (s.config.inPrompt ++ [c])) ∧
    (∀ v, s.input = [] → s.inputEnded = true → s.config.eofBehaviour = .value v →
      ∃ t, exec .trapIn s = .next t ∧ ReadRoutineEffect s t v [] (s.config.inPrompt ++ [v])) ∧
    (s.input = [] → (s.inputEnded = false ∨ s.config.eofBehaviour = .block) →
      exec .trapIn s = .next { s with pc := s.pc - 1#16 })

/-- OUT writes the low byte of R0, zero or not. Rests on the spec's decision D32. -/
def Obligations.OutWritesTheLowByteOfR0 : Prop :=
  ∀ s : State, ∃ t, exec .trapOut s = .next t ∧
    WriteRoutineEffect s t [(s.reg .r0).extractLsb' 0 8] s.run

/-- PUTS is the loop of its pseudocode, and it ends from every state: exec answers exactly the state
the loop ends in. That it always ends rests on log 5; the bytes and reads on D17 and D18. -/
def Obligations.PutsEndsAndRunsTheSpecLoop : Prop :=
  ∀ s : State, ∃ t, exec .trapPuts s = .next t ∧
    PutsLoop (s.reg .r0) (s.writeReg .r7 s.pc) t ∧
    (∀ t', PutsLoop (s.reg .r0) (s.writeReg .r7 s.pc) t' → t' = t) ∧ StringRoutineFrame s t

/-- PUTS of a string in ordinary memory writes the low byte of each cell in order. Rests on the
spec's decisions D17 and D18. -/
def Obligations.PutsWritesAnOrdinaryString : Prop :=
  ∀ (s : State) (ws : List Word), StringAt s (s.reg .r0) ws →
    ∃ t, exec .trapPuts s = .next t ∧
      WriteRoutineEffect s t (ws.map fun w => w.extractLsb' 0 8) s.run

/-- PUTSP is the loop of its pseudocode, under either value of `PUTSP_ZERO_HIGH_STOPS`, and it ends
from every state. That it always ends rests on log 5; the loop on D16 and D18. -/
def Obligations.PutspEndsAndRunsTheSpecLoop : Prop :=
  ∀ s : State, ∃ t, exec .trapPutsp s = .next t ∧
    PutspLoop (s.reg .r0) (s.writeReg .r7 s.pc) t ∧
    (∀ t', PutspLoop (s.reg .r0) (s.writeReg .r7 s.pc) t' → t' = t) ∧ StringRoutineFrame s t

/-- PUTSP of a packed string in ordinary memory: low byte, then high byte if non-zero. Rests on the
spec's decisions D16 and D18. -/
def Obligations.PutspWritesAPackedString : Prop :=
  ∀ (s : State) (ws : List Word), StringAt s (s.reg .r0) ws →
    ∃ t, exec .trapPutsp s = .next t ∧
      WriteRoutineEffect s t (packedBytes s.config.putspZeroHighStops ws) s.run

/-- HALT writes the notice and enters HALTED. Rests on the spec's decisions D13 and D28. -/
def Obligations.HaltWritesTheNoticeAndHalts : Prop :=
  ∀ s : State, ∃ t, exec .trapHalt s = .next t ∧
    WriteRoutineEffect s t s.config.haltNotice .halted

/-- A TRAP with an unhandled vector writes R7, reports (address of the TRAP, vector) and goes on.
Rests on the spec's decision D11. -/
def Obligations.UnhandledTrapIsReportedAndExecutionGoesOn : Prop :=
  ∀ (v : BitVec 8) (s : State), ∃ t, exec (.trapUnhandled v) s = .next t ∧
    TrapEntryEffect s t [] ∧ t.cond = s.cond ∧
    t.anomalies = s.anomalies ++ [⟨s.pc - 1#16, v⟩] ∧ t.mem = s.mem ∧ SameCellsExcept [] s t ∧
    SameConsole s t ∧ SameRun s t ∧ t.inputEnded = s.inputEnded ∧ t.irqPending = s.irqPending ∧
    t.config = s.config

/-! ## Illegal opcodes: rti, res -/

/-- RTI and RES raise IllegalOpcode: RUN is FAULTED, the record is (address fetched from, opcode), PC
keeps the incremented value, nothing else changes; as instructions, and as steps on every word of
opcode 1000 or 1101 away from KBSR. Rests on the spec's decision D10 and on log 11. -/
def Obligations.IllegalOpcodeEntersFaultedWithTheRecord : Prop :=
  (∀ s : State, exec .rti s =
    .next { s with run := .faulted, fault := some ⟨s.pc - 1#16, 0b1000#4⟩ }) ∧
  (∀ s : State, exec .res s =
    .next { s with run := .faulted, fault := some ⟨s.pc - 1#16, 0b1101#4⟩ }) ∧
  ∀ s : State, s.run = .running → s.irqPending = false → s.pc ≠ kbsrAddr →
    ((s.cell s.pc).extractLsb' 12 4 = 0b1000#4 ∨ (s.cell s.pc).extractLsb' 12 4 = 0b1101#4) →
    step s = .next { s with
      pc := s.pc + 1#16, run := .faulted
      fault := some ⟨s.pc, (s.cell s.pc).extractLsb' 12 4⟩ }

/-! ## The bus and the keyboard -/

/-- A bus read: away from KBSR the cell, and nothing changes; at KBSR with no key 0, KBSR cleared,
KBDR left; with a key 0x8000, KBSR set, the key taken into KBDR. Rests on the spec's decisions D7, D9,
D20. -/
def Obligations.BusReadPollsAtKbsr : Prop :=
  ∀ s : State,
    (∀ a, a ≠ 0xFE00#16 → s.memRead a = (s.cell a, s)) ∧
    (s.input = [] → (s.memRead 0xFE00#16).1 = 0x0000#16 ∧
      (s.memRead 0xFE00#16).2.cell 0xFE00#16 = 0x0000#16 ∧
      SameCellsExcept [0xFE00#16] s (s.memRead 0xFE00#16).2 ∧
      (s.memRead 0xFE00#16).2 = { s with mem := (s.memRead 0xFE00#16).2.mem }) ∧
    (∀ c rest, s.input = c :: rest → (s.memRead 0xFE00#16).1 = 0x8000#16 ∧
      (s.memRead 0xFE00#16).2.cell 0xFE00#16 = 0x8000#16 ∧
      (s.memRead 0xFE00#16).2.cell 0xFE02#16 = c.setWidth 16 ∧
      SameCellsExcept [0xFE00#16, 0xFE02#16] s (s.memRead 0xFE00#16).2 ∧
      (s.memRead 0xFE00#16).2 =
        { s with mem := (s.memRead 0xFE00#16).2.mem, input := rest })

/-- A bus write is a plain store at every address, the two device addresses included; the canonical
form is kept (log 2); a later read gives the value, but at KBSR, where it polls. Rests on the spec's
decision D8. -/
def Obligations.BusWriteStoresOneCell : Prop :=
  ∀ (s : State) (a v : Word),
    (s.memWrite a v).cell a = v ∧ SameCellsExcept [a] s (s.memWrite a v) ∧
    s.memWrite a v = { s with mem := (s.memWrite a v).mem } ∧
    (s.mem.wf = true → (s.memWrite a v).mem.wf = true) ∧
    (a ≠ 0xFE00#16 → (s.memWrite a v).memRead a = (v, s.memWrite a v)) ∧
    (a = 0xFE00#16 → s.input = [] → ((s.memWrite a v).memRead a).1 = 0x0000#16)

/-- The keyboard protocol: with one key queued, KBSR reads 0x8000 and takes the key, KBDR gives its
code, KBSR then reads 0 and KBDR keeps the code. Rests on the spec's decisions D7, D9, D20. -/
def Obligations.KeyboardProtocolYieldsTheKeyOnce : Prop :=
  ∀ (s : State) (c : Byte), s.input = [c] →
    let r1 := s.memRead 0xFE00#16
    let r2 := r1.2.memRead 0xFE02#16
    let r3 := r2.2.memRead 0xFE00#16
    let r4 := r3.2.memRead 0xFE02#16
    r1.1 = 0x8000#16 ∧ r1.2.input = [] ∧ r2.1 = c.setWidth 16 ∧ r2.2 = r1.2 ∧
      r3.1 = 0x0000#16 ∧ r4.1 = c.setWidth 16

/-! ## The step -/

/-- A step that is neither stopped, interrupted nor held fetches the word at PC, increments PC,
wrapping, and then executes the decoded instruction; and where the cell at PC, not KBSR, holds a
well-formed instruction's word, that instruction. That the fetch is a bus read, so polls at KBSR, is the
spec's own decision D5 (log 17). -/
def Obligations.StepRunsTheDecodedInstruction : Prop :=
  (∀ s : State, s.run = .running → s.irqPending = false → s.heldForInput = false →
    step s = exec (decodeWord (s.memRead s.pc).1)
      { (s.memRead s.pc).2 with pc := BitVec.ofNat 16 ((s.pc.toNat + 1) % 65536) }) ∧
  ∀ (s : State) (i : Instr), i.wellFormed = true → s.pc ≠ kbsrAddr → s.cell s.pc = encode i →
    s.run = .running → s.irqPending = false → (callsReadChar i = true → s.wouldBlock = false) →
    step s = exec i { s with pc := s.pc + 1#16 }

/-- The order of a step's events: a terminal state takes no step and a held core none, which the model
writes as an unchanged next state (log 3, log 4); a pending interrupt is taken before the hold and
before any fetch, and changes RUN only. -/
def Obligations.TerminalThenInterruptThenHold : Prop :=
  (∀ s : State, s.run ≠ .running → step s = .next s) ∧
  (∀ s : State, s.run = .running → s.irqPending = true →
    step s = .next { s with run := .interrupted }) ∧
  (∀ s : State, s.run = .running → s.irqPending = false → s.heldForInput = true →
    step s = .next s)

/-- The exact hold condition, `EOF_BEHAVIOUR` included; and a held core is one whose instruction,
were it fetched, would be held by exec with the state as it was before the fetch. Rests on the spec's
decisions D6, D19 and on log 4 and log 7. -/
def Obligations.HeldExactlyAtABlockedReadTrap : Prop :=
  ∀ s : State,
    (s.heldForInput = true ↔
      s.pc ≠ 0xFE00#16 ∧ (s.cell s.pc).extractLsb' 12 4 = 0b1111#4 ∧
      ((s.cell s.pc).extractLsb' 0 8 = 0x20#8 ∨ (s.cell s.pc).extractLsb' 0 8 = 0x23#8) ∧
      s.input = [] ∧ (s.inputEnded = false ∨ s.config.eofBehaviour = .block)) ∧
    (s.heldForInput = true → exec (decodeWord s.fetch.1) s.fetch.2 = .next s)

/-- A character lifts the hold, and the whole instruction, GETC or IN (43_trap.md), then happens as one
step; the interrupt ends it with nothing else changed. Rests on the spec's decisions D6, D12, D20 (the
zero extension) and D26 (log 17), and on log 7 and log 9. -/
def Obligations.CharacterOrInterruptLiftsTheHold : Prop :=
  ∀ (s : State) (c : Byte), s.run = .running → s.irqPending = false → s.heldForInput = true →
    (s.inputEnded = false → ∃ t, step ((HostAction.appendChar c).apply s) = .next t ∧
      t.reg .r0 = c.setWidth 16 ∧ t.reg .r7 = s.pc + 1#16 ∧ t.pc = s.pc + 1#16 ∧ t.input = []) ∧
    step (HostAction.raiseInterrupt.apply s) =
      .next { s with irqPending := true, run := .interrupted }

/-- 45_execution_cycle.md R184: the transitions of RUN, each exactly when the rule says; from a
terminal state none. `w` is the word the step fetches. -/
def Obligations.RunStateChangesOnlyAsListed : Prop :=
  ∀ s t : State, step s = .next t →
    let w := (s.memRead s.pc).1
    let runs := s.irqPending = false ∧ s.heldForInput = false
    (s.run ≠ .running → t.run = s.run) ∧
    (s.run = .running →
      (t.run = .interrupted ↔ s.irqPending = true) ∧
      (t.run = .halted ↔
        runs ∧ w.extractLsb' 12 4 = 0b1111#4 ∧ w.extractLsb' 0 8 = 0x25#8) ∧
      (t.run = .faulted ↔
        runs ∧ (w.extractLsb' 12 4 = 0b1000#4 ∨ w.extractLsb' 12 4 = 0b1101#4)))

/-- The logs only grow, the queue only loses its head, and no step writes what is the host's: input
ended, interrupt pending, the parameters (log 6, log 7). -/
def Obligations.StepOnlyAppendsToLogsAndConsumesInput : Prop :=
  ∀ s t : State, step s = .next t →
    s.output <+: t.output ∧ s.anomalies <+: t.anomalies ∧ t.input <:+ s.input ∧
    t.inputEnded = s.inputEnded ∧ t.irqPending = s.irqPending ∧ t.config = s.config

/-- Nothing but RTI and RES raises anything: every instruction from every state, and every step,
answers a next state, and RUN becomes FAULTED by those two only. That PUTS and PUTSP end rests on
log 5; that a blocked GETC or IN and a held step answer a next state on log 4, a terminal state on
log 3, an illegal opcode on log 11. -/
def Obligations.NoInstructionOrStepStops : Prop :=
  (∀ (i : Instr) (s : State), ∃ t, exec i s = .next t ∧
    (t.run = .faulted → s.run = .faulted ∨ i = .rti ∨ i = .res)) ∧
  ∀ s : State, ∃ t, step s = .next t

/-! ## Whole-machine rules over all instructions -/

/-- 10_state.md R21: the registers each form writes, and that it reads no others: another value in a
register a form does not read changes nothing of the result but that register, and not even that where
the form writes it (a GETC or IN that is held, log 4, has not executed and writes none); reset. -/
def Obligations.RegistersAreWrittenAndReadOnlyAsListed : Prop :=
  (∀ (i : Instr) (s t : State), exec i s = .next t → SameRegsExcept (writesRegs i) s t) ∧
  (∀ (i : Instr) (s t : State) (r : Reg) (v : Word), r ∉ readsRegs i → r ∉ writesRegs i →
    exec i s = .next t → exec i (s.writeReg r v) = .next (t.writeReg r v)) ∧
  (∀ (i : Instr) (s t : State) (r : Reg) (v : Word), r ∉ readsRegs i → r ∈ writesRegs i →
    (callsReadChar i = true → s.wouldBlock = false) →
    exec i s = .next t → exec i (s.writeReg r v) = .next t) ∧
  ∀ r, State.reset.reg r = 0x0000#16

/-- How each instruction leaves the PC (a GETC or IN that is held, log 4, has not executed); reset
(10_state.md, program counter). That `JSRR R7` leaves PC at the incremented value is the spec's own
inference from the order of effects (41_control.md, log 17). -/
def Obligations.PcAfterEachInstruction : Prop :=
  (∀ (i : Instr) (s t : State), exec i s = .next t →
    (callsReadChar i = true → s.wouldBlock = false) → t.pc = pcAfter i s) ∧
  State.reset.pc = 0x3000#16

/-- Which cells an instruction may change: the one it stores to, and KBSR and KBDR if it reads
memory; a form that neither reads nor stores leaves memory as it is. -/
def Obligations.CellsChangeOnlyByStoresAndKeyboardPolls : Prop :=
  ∀ (i : Instr) (s t : State), exec i s = .next t →
    SameCellsExcept (kbsrAddr :: kbdrAddr :: (storesTo i s).toList) s t ∧
    (readsMemory i = false → SameCellsExcept (storesTo i s).toList s t) ∧
    (readsMemory i = false → storesTo i s = none → t.mem = s.mem)

/-- Forms with no data access do not depend on memory: a cell changed before is changed alike after,
and nothing else differs. -/
def Obligations.FormsWithoutDataAccessIgnoreMemory : Prop :=
  ∀ (i : Instr) (s t : State) (a v : Word), readsMemory i = false → storesTo i s = none →
    exec i s = .next t → exec i (s.writeCell a v) = .next (t.writeCell a v)

/-- LD and LDR make one data access and LDI two: away from KBSR their register result and COND depend
on memory through those cells alone. -/
def Obligations.LoadsDependOnlyOnTheCellsTheyRead : Prop :=
  ∀ (s : State) (m : Memory) (t t' : State) (dr : Reg) (offset9 : BitVec 9) (base : Reg)
    (offset6 : BitVec 6),
    (s.pc + sext offset9 ≠ kbsrAddr →
      m.readCell (s.pc + sext offset9) = s.cell (s.pc + sext offset9) →
      exec (.ld dr offset9) s = .next t → exec (.ld dr offset9) { s with mem := m } = .next t' →
      t'.regs = t.regs ∧ t'.cond = t.cond) ∧
    (s.reg base + sext offset6 ≠ kbsrAddr →
      m.readCell (s.reg base + sext offset6) = s.cell (s.reg base + sext offset6) →
      exec (.ldr dr base offset6) s = .next t →
      exec (.ldr dr base offset6) { s with mem := m } = .next t' →
      t'.regs = t.regs ∧ t'.cond = t.cond) ∧
    (s.pc + sext offset9 ≠ kbsrAddr → s.cell (s.pc + sext offset9) ≠ kbsrAddr →
      m.readCell (s.pc + sext offset9) = s.cell (s.pc + sext offset9) →
      m.readCell (s.cell (s.pc + sext offset9)) = s.cell (s.cell (s.pc + sext offset9)) →
      exec (.ldi dr offset9) s = .next t → exec (.ldi dr offset9) { s with mem := m } = .next t' →
      t'.regs = t.regs ∧ t'.cond = t.cond)

/-- No step reads the output log or the anomaly log: a step from a state with other entries in front
of them differs in those entries alone. -/
def Obligations.NoStepReadsTheLogs : Prop :=
  ∀ (s t : State) (out : List Byte) (reports : List Anomaly), step s = .next t →
    step { s with output := out ++ s.output, anomalies := reports ++ s.anomalies } =
      .next { t with output := out ++ t.output, anomalies := reports ++ t.anomalies }

/-- In the state ST, STI or STR leaves, a fetch at the address stored to gives the value of its SR, the
very next fetch if that address is PC; away from KBSR, where a fetch polls. Rests on the spec's
decisions D5 and D22. -/
def Obligations.StoreIsSeenByTheNextFetch : Prop :=
  ∀ (s : State) (sr : Reg),
    (∀ offset9 : BitVec 9, s.pc + sext offset9 ≠ kbsrAddr →
      ∃ t, exec (.st sr offset9) s = .next t ∧
        FetchGives t (s.pc + sext offset9) (s.reg sr)) ∧
    (∀ offset9 : BitVec 9, (s.memRead (s.pc + sext offset9)).1 ≠ kbsrAddr →
      ∃ t, exec (.sti sr offset9) s = .next t ∧
        FetchGives t (s.memRead (s.pc + sext offset9)).1 (s.reg sr)) ∧
    ∀ (base : Reg) (offset6 : BitVec 6), s.reg base + sext offset6 ≠ kbsrAddr →
      ∃ t, exec (.str sr base offset6) s = .next t ∧
        FetchGives t (s.reg base + sext offset6) (s.reg sr)

/-! ## The host -/

/-- Image load: word `k` of an image goes to cell `origin + k` while that is below 65,536, every other
cell and everything else stays; images load in order, the later on top. Rests on the spec's decision
D24 (log 17). That boot sets the parameters, and so is reset with them where no image is loaded, is the
model's choice of log 6; the empty queue it begins with is log 8's. -/
def Obligations.ImageLoadFillsFromTheOrigin : Prop :=
  (∀ (s : State) (origin : Word) (ws : List Word),
    s.loadImage ⟨origin, ws⟩ = { s with mem := (s.loadImage ⟨origin, ws⟩).mem } ∧
    (∀ (k : Nat) (h : k < ws.length), origin.toNat + k < 65536 →
      (s.loadImage ⟨origin, ws⟩).cell (BitVec.ofNat 16 (origin.toNat + k)) = ws[k]) ∧
    ∀ a : Word, a.toNat < origin.toNat ∨ origin.toNat + ws.length ≤ a.toNat →
      (s.loadImage ⟨origin, ws⟩).cell a = s.cell a) ∧
  (∀ (c : Config) (images : List Image) (im : Image),
    boot c (images ++ [im]) = (boot c images).loadImage im) ∧
  ∀ c : Config, boot c [] = { State.reset with config := c }

/-- What each host act does, and nothing else: a character goes to the end of the queue, or is ignored
once the input has ended, and leaves both bits; raising the interrupt sets the pending bit; ending the
input sets that bit. No act touches the core, and none clears a bit. Rests on the spec's decisions D6
and D12 and on log 7 and log 10. -/
def Obligations.HostActsTouchOnlyTheBoundary : Prop :=
  (∀ (s : State) (c : Byte),
    (s.inputEnded = false →
      (HostAction.appendChar c).apply s = { s with input := s.input ++ [c] }) ∧
    (s.inputEnded = true → (HostAction.appendChar c).apply s = s) ∧
    ((HostAction.appendChar c).apply s).irqPending = s.irqPending ∧
    ((HostAction.appendChar c).apply s).inputEnded = s.inputEnded) ∧
  (∀ s : State, HostAction.raiseInterrupt.apply s = { s with irqPending := true }) ∧
  (∀ s : State, HostAction.endInput.apply s = { s with inputEnded := true }) ∧
  ∀ (s : State) (a : HostAction),
    a.apply s = { s with
      input := (a.apply s).input, inputEnded := (a.apply s).inputEnded
      irqPending := (a.apply s).irqPending } ∧
    (s.irqPending = true → (a.apply s).irqPending = true) ∧
    (s.inputEnded = true → (a.apply s).inputEnded = true ∧ (a.apply s).input = s.input) ∧
    s.input <+: (a.apply s).input
end

