-- ==== Sys2Proof/Laws/State.lean ====
section
/-! SUPPORT. One lemma per field per update of the state, each true by `rfl`, so that no later proof
unfolds a record update. -/

namespace Sys2Proof.Machine

open Sys2Proof

section writeReg

variable (s : State) (i : Reg) (v : Word)

@[simp] theorem State.writeReg_regs : (s.writeReg i v).regs = s.regs.write i v := rfl
@[simp] theorem State.writeReg_pc : (s.writeReg i v).pc = s.pc := rfl
@[simp] theorem State.writeReg_cond : (s.writeReg i v).cond = s.cond := rfl
@[simp] theorem State.writeReg_run : (s.writeReg i v).run = s.run := rfl
@[simp] theorem State.writeReg_fault : (s.writeReg i v).fault = s.fault := rfl
@[simp] theorem State.writeReg_anomalies : (s.writeReg i v).anomalies = s.anomalies := rfl
@[simp] theorem State.writeReg_mem : (s.writeReg i v).mem = s.mem := rfl
@[simp] theorem State.writeReg_input : (s.writeReg i v).input = s.input := rfl
@[simp] theorem State.writeReg_inputEnded : (s.writeReg i v).inputEnded = s.inputEnded := rfl
@[simp] theorem State.writeReg_output : (s.writeReg i v).output = s.output := rfl
@[simp] theorem State.writeReg_irqPending : (s.writeReg i v).irqPending = s.irqPending := rfl
@[simp] theorem State.writeReg_config : (s.writeReg i v).config = s.config := rfl
@[simp] theorem State.writeReg_cell (c : Word) : (s.writeReg i v).cell c = s.cell c := rfl

end writeReg

section setPc

variable (s : State) (v : Word)

@[simp] theorem State.setPc_regs : (s.setPc v).regs = s.regs := rfl
@[simp] theorem State.setPc_pc : (s.setPc v).pc = v := rfl
@[simp] theorem State.setPc_cond : (s.setPc v).cond = s.cond := rfl
@[simp] theorem State.setPc_run : (s.setPc v).run = s.run := rfl
@[simp] theorem State.setPc_fault : (s.setPc v).fault = s.fault := rfl
@[simp] theorem State.setPc_anomalies : (s.setPc v).anomalies = s.anomalies := rfl
@[simp] theorem State.setPc_mem : (s.setPc v).mem = s.mem := rfl
@[simp] theorem State.setPc_input : (s.setPc v).input = s.input := rfl
@[simp] theorem State.setPc_inputEnded : (s.setPc v).inputEnded = s.inputEnded := rfl
@[simp] theorem State.setPc_output : (s.setPc v).output = s.output := rfl
@[simp] theorem State.setPc_irqPending : (s.setPc v).irqPending = s.irqPending := rfl
@[simp] theorem State.setPc_config : (s.setPc v).config = s.config := rfl
@[simp] theorem State.setPc_reg (r : Reg) : (s.setPc v).reg r = s.reg r := rfl
@[simp] theorem State.setPc_cell (c : Word) : (s.setPc v).cell c = s.cell c := rfl

end setPc

section setcc

variable (s : State) (i : Reg)

@[simp] theorem State.setcc_regs : (s.setcc i).regs = s.regs := rfl
@[simp] theorem State.setcc_pc : (s.setcc i).pc = s.pc := rfl
@[simp] theorem State.setcc_cond : (s.setcc i).cond = flagsOf (s.reg i) := rfl
@[simp] theorem State.setcc_run : (s.setcc i).run = s.run := rfl
@[simp] theorem State.setcc_fault : (s.setcc i).fault = s.fault := rfl
@[simp] theorem State.setcc_anomalies : (s.setcc i).anomalies = s.anomalies := rfl
@[simp] theorem State.setcc_mem : (s.setcc i).mem = s.mem := rfl
@[simp] theorem State.setcc_input : (s.setcc i).input = s.input := rfl
@[simp] theorem State.setcc_inputEnded : (s.setcc i).inputEnded = s.inputEnded := rfl
@[simp] theorem State.setcc_output : (s.setcc i).output = s.output := rfl
@[simp] theorem State.setcc_irqPending : (s.setcc i).irqPending = s.irqPending := rfl
@[simp] theorem State.setcc_config : (s.setcc i).config = s.config := rfl
@[simp] theorem State.setcc_reg (r : Reg) : (s.setcc i).reg r = s.reg r := rfl
@[simp] theorem State.setcc_cell (c : Word) : (s.setcc i).cell c = s.cell c := rfl

end setcc

section writeCell

variable (s : State) (a v : Word)

@[simp] theorem State.writeCell_regs : (s.writeCell a v).regs = s.regs := rfl
@[simp] theorem State.writeCell_pc : (s.writeCell a v).pc = s.pc := rfl
@[simp] theorem State.writeCell_cond : (s.writeCell a v).cond = s.cond := rfl
@[simp] theorem State.writeCell_run : (s.writeCell a v).run = s.run := rfl
@[simp] theorem State.writeCell_fault : (s.writeCell a v).fault = s.fault := rfl
@[simp] theorem State.writeCell_anomalies : (s.writeCell a v).anomalies = s.anomalies := rfl
@[simp] theorem State.writeCell_mem : (s.writeCell a v).mem = s.mem.writeCell a v := rfl
@[simp] theorem State.writeCell_input : (s.writeCell a v).input = s.input := rfl
@[simp] theorem State.writeCell_inputEnded : (s.writeCell a v).inputEnded = s.inputEnded := rfl
@[simp] theorem State.writeCell_output : (s.writeCell a v).output = s.output := rfl
@[simp] theorem State.writeCell_irqPending : (s.writeCell a v).irqPending = s.irqPending := rfl
@[simp] theorem State.writeCell_config : (s.writeCell a v).config = s.config := rfl
@[simp] theorem State.writeCell_reg (r : Reg) : (s.writeCell a v).reg r = s.reg r := rfl

end writeCell

section writeChar

variable (s : State) (b : Byte)

@[simp] theorem State.writeChar_regs : (s.writeChar b).regs = s.regs := rfl
@[simp] theorem State.writeChar_pc : (s.writeChar b).pc = s.pc := rfl
@[simp] theorem State.writeChar_cond : (s.writeChar b).cond = s.cond := rfl
@[simp] theorem State.writeChar_run : (s.writeChar b).run = s.run := rfl
@[simp] theorem State.writeChar_fault : (s.writeChar b).fault = s.fault := rfl
@[simp] theorem State.writeChar_anomalies : (s.writeChar b).anomalies = s.anomalies := rfl
@[simp] theorem State.writeChar_mem : (s.writeChar b).mem = s.mem := rfl
@[simp] theorem State.writeChar_input : (s.writeChar b).input = s.input := rfl
@[simp] theorem State.writeChar_inputEnded : (s.writeChar b).inputEnded = s.inputEnded := rfl
@[simp] theorem State.writeChar_output : (s.writeChar b).output = s.output ++ [b] := rfl
@[simp] theorem State.writeChar_irqPending : (s.writeChar b).irqPending = s.irqPending := rfl
@[simp] theorem State.writeChar_config : (s.writeChar b).config = s.config := rfl
@[simp] theorem State.writeChar_reg (r : Reg) : (s.writeChar b).reg r = s.reg r := rfl
@[simp] theorem State.writeChar_cell (c : Word) : (s.writeChar b).cell c = s.cell c := rfl

end writeChar

section writeChars

variable (s : State) (bs : List Byte)

@[simp] theorem State.writeChars_regs : (s.writeChars bs).regs = s.regs := rfl
@[simp] theorem State.writeChars_pc : (s.writeChars bs).pc = s.pc := rfl
@[simp] theorem State.writeChars_cond : (s.writeChars bs).cond = s.cond := rfl
@[simp] theorem State.writeChars_run : (s.writeChars bs).run = s.run := rfl
@[simp] theorem State.writeChars_fault : (s.writeChars bs).fault = s.fault := rfl
@[simp] theorem State.writeChars_anomalies : (s.writeChars bs).anomalies = s.anomalies := rfl
@[simp] theorem State.writeChars_mem : (s.writeChars bs).mem = s.mem := rfl
@[simp] theorem State.writeChars_input : (s.writeChars bs).input = s.input := rfl
@[simp] theorem State.writeChars_inputEnded : (s.writeChars bs).inputEnded = s.inputEnded := rfl
@[simp] theorem State.writeChars_output : (s.writeChars bs).output = s.output ++ bs := rfl
@[simp] theorem State.writeChars_irqPending : (s.writeChars bs).irqPending = s.irqPending := rfl
@[simp] theorem State.writeChars_config : (s.writeChars bs).config = s.config := rfl
@[simp] theorem State.writeChars_reg (r : Reg) : (s.writeChars bs).reg r = s.reg r := rfl
@[simp] theorem State.writeChars_cell (c : Word) : (s.writeChars bs).cell c = s.cell c := rfl

end writeChars

section raiseIllegalOpcode

variable (s : State) (op : BitVec 4)

@[simp] theorem State.raiseIllegalOpcode_regs : (s.raiseIllegalOpcode op).regs = s.regs := rfl
@[simp] theorem State.raiseIllegalOpcode_pc : (s.raiseIllegalOpcode op).pc = s.pc := rfl
@[simp] theorem State.raiseIllegalOpcode_cond : (s.raiseIllegalOpcode op).cond = s.cond := rfl
@[simp] theorem State.raiseIllegalOpcode_run : (s.raiseIllegalOpcode op).run = .faulted := rfl
@[simp] theorem State.raiseIllegalOpcode_fault : (s.raiseIllegalOpcode op).fault = some ⟨s.instrAddr, op⟩ := rfl
@[simp] theorem State.raiseIllegalOpcode_anomalies : (s.raiseIllegalOpcode op).anomalies = s.anomalies := rfl
@[simp] theorem State.raiseIllegalOpcode_mem : (s.raiseIllegalOpcode op).mem = s.mem := rfl
@[simp] theorem State.raiseIllegalOpcode_input : (s.raiseIllegalOpcode op).input = s.input := rfl
@[simp] theorem State.raiseIllegalOpcode_inputEnded : (s.raiseIllegalOpcode op).inputEnded = s.inputEnded := rfl
@[simp] theorem State.raiseIllegalOpcode_output : (s.raiseIllegalOpcode op).output = s.output := rfl
@[simp] theorem State.raiseIllegalOpcode_irqPending : (s.raiseIllegalOpcode op).irqPending = s.irqPending := rfl
@[simp] theorem State.raiseIllegalOpcode_config : (s.raiseIllegalOpcode op).config = s.config := rfl
@[simp] theorem State.raiseIllegalOpcode_reg (r : Reg) : (s.raiseIllegalOpcode op).reg r = s.reg r := rfl
@[simp] theorem State.raiseIllegalOpcode_cell (c : Word) : (s.raiseIllegalOpcode op).cell c = s.cell c := rfl

end raiseIllegalOpcode

section reportUnhandledTrap

variable (s : State) (v : BitVec 8)

@[simp] theorem State.reportUnhandledTrap_regs : (s.reportUnhandledTrap v).regs = s.regs := rfl
@[simp] theorem State.reportUnhandledTrap_pc : (s.reportUnhandledTrap v).pc = s.pc := rfl
@[simp] theorem State.reportUnhandledTrap_cond : (s.reportUnhandledTrap v).cond = s.cond := rfl
@[simp] theorem State.reportUnhandledTrap_run : (s.reportUnhandledTrap v).run = s.run := rfl
@[simp] theorem State.reportUnhandledTrap_fault : (s.reportUnhandledTrap v).fault = s.fault := rfl
@[simp] theorem State.reportUnhandledTrap_anomalies : (s.reportUnhandledTrap v).anomalies = s.anomalies ++ [⟨s.instrAddr, v⟩] := rfl
@[simp] theorem State.reportUnhandledTrap_mem : (s.reportUnhandledTrap v).mem = s.mem := rfl
@[simp] theorem State.reportUnhandledTrap_input : (s.reportUnhandledTrap v).input = s.input := rfl
@[simp] theorem State.reportUnhandledTrap_inputEnded : (s.reportUnhandledTrap v).inputEnded = s.inputEnded := rfl
@[simp] theorem State.reportUnhandledTrap_output : (s.reportUnhandledTrap v).output = s.output := rfl
@[simp] theorem State.reportUnhandledTrap_irqPending : (s.reportUnhandledTrap v).irqPending = s.irqPending := rfl
@[simp] theorem State.reportUnhandledTrap_config : (s.reportUnhandledTrap v).config = s.config := rfl
@[simp] theorem State.reportUnhandledTrap_reg (r : Reg) : (s.reportUnhandledTrap v).reg r = s.reg r := rfl
@[simp] theorem State.reportUnhandledTrap_cell (c : Word) : (s.reportUnhandledTrap v).cell c = s.cell c := rfl

end reportUnhandledTrap

section takeInterrupt

variable (s : State)

@[simp] theorem State.takeInterrupt_regs : s.takeInterrupt.regs = s.regs := rfl
@[simp] theorem State.takeInterrupt_pc : s.takeInterrupt.pc = s.pc := rfl
@[simp] theorem State.takeInterrupt_cond : s.takeInterrupt.cond = s.cond := rfl
@[simp] theorem State.takeInterrupt_run : s.takeInterrupt.run = .interrupted := rfl
@[simp] theorem State.takeInterrupt_fault : s.takeInterrupt.fault = s.fault := rfl
@[simp] theorem State.takeInterrupt_anomalies : s.takeInterrupt.anomalies = s.anomalies := rfl
@[simp] theorem State.takeInterrupt_mem : s.takeInterrupt.mem = s.mem := rfl
@[simp] theorem State.takeInterrupt_input : s.takeInterrupt.input = s.input := rfl
@[simp] theorem State.takeInterrupt_inputEnded : s.takeInterrupt.inputEnded = s.inputEnded := rfl
@[simp] theorem State.takeInterrupt_output : s.takeInterrupt.output = s.output := rfl
@[simp] theorem State.takeInterrupt_irqPending : s.takeInterrupt.irqPending = s.irqPending := rfl
@[simp] theorem State.takeInterrupt_config : s.takeInterrupt.config = s.config := rfl
@[simp] theorem State.takeInterrupt_reg (r : Reg) : s.takeInterrupt.reg r = s.reg r := rfl
@[simp] theorem State.takeInterrupt_cell (c : Word) : s.takeInterrupt.cell c = s.cell c := rfl

end takeInterrupt

section halt

variable (s : State)

@[simp] theorem State.halt_regs : s.halt.regs = s.regs := rfl
@[simp] theorem State.halt_pc : s.halt.pc = s.pc := rfl
@[simp] theorem State.halt_cond : s.halt.cond = s.cond := rfl
@[simp] theorem State.halt_run : s.halt.run = .halted := rfl
@[simp] theorem State.halt_fault : s.halt.fault = s.fault := rfl
@[simp] theorem State.halt_anomalies : s.halt.anomalies = s.anomalies := rfl
@[simp] theorem State.halt_mem : s.halt.mem = s.mem := rfl
@[simp] theorem State.halt_input : s.halt.input = s.input := rfl
@[simp] theorem State.halt_inputEnded : s.halt.inputEnded = s.inputEnded := rfl
@[simp] theorem State.halt_output : s.halt.output = s.output := rfl
@[simp] theorem State.halt_irqPending : s.halt.irqPending = s.irqPending := rfl
@[simp] theorem State.halt_config : s.halt.config = s.config := rfl
@[simp] theorem State.halt_reg (r : Reg) : s.halt.reg r = s.reg r := rfl
@[simp] theorem State.halt_cell (c : Word) : s.halt.cell c = s.cell c := rfl

end halt

section loadImage

variable (s : State) (im : Image)

@[simp] theorem State.loadImage_regs : (s.loadImage im).regs = s.regs := rfl
@[simp] theorem State.loadImage_pc : (s.loadImage im).pc = s.pc := rfl
@[simp] theorem State.loadImage_cond : (s.loadImage im).cond = s.cond := rfl
@[simp] theorem State.loadImage_run : (s.loadImage im).run = s.run := rfl
@[simp] theorem State.loadImage_fault : (s.loadImage im).fault = s.fault := rfl
@[simp] theorem State.loadImage_anomalies : (s.loadImage im).anomalies = s.anomalies := rfl
@[simp] theorem State.loadImage_mem : (s.loadImage im).mem = s.mem.loadWords im.origin.toNat im.words := rfl
@[simp] theorem State.loadImage_input : (s.loadImage im).input = s.input := rfl
@[simp] theorem State.loadImage_inputEnded : (s.loadImage im).inputEnded = s.inputEnded := rfl
@[simp] theorem State.loadImage_output : (s.loadImage im).output = s.output := rfl
@[simp] theorem State.loadImage_irqPending : (s.loadImage im).irqPending = s.irqPending := rfl
@[simp] theorem State.loadImage_config : (s.loadImage im).config = s.config := rfl
@[simp] theorem State.loadImage_reg (r : Reg) : (s.loadImage im).reg r = s.reg r := rfl

end loadImage

/-! Operations that are another update under a name of the spec's own. -/

@[simp] theorem State.memWrite_eq (s : State) (a v : Word) : s.memWrite a v = s.writeCell a v := rfl

@[simp] theorem State.flush_eq (s : State) : s.flush = s := rfl

@[simp] theorem State.enterTrap_eq (s : State) : s.enterTrap = s.writeReg .r7 s.pc := rfl

@[simp] theorem State.holdInstruction_eq (s : State) : s.holdInstruction = s.setPc s.instrAddr := rfl

@[simp] theorem State.writeResult_eq (s : State) (dr : Reg) (v : Word) :
    s.writeResult dr v = (s.writeReg dr v).setcc dr := rfl

@[simp] theorem State.storeChar_eq (s : State) (c : Byte) :
    s.storeChar c = s.writeResult .r0 (zext8 c) := rfl

@[simp] theorem State.loadFrom_eq (s : State) (dr : Reg) (ea : Word) :
    s.loadFrom dr ea = (s.memRead ea).2.writeResult dr (s.memRead ea).1 := rfl

theorem State.instrAddr_setPc_succ (s : State) (a : Word) :
    (s.setPc (a + 1#16)).instrAddr = a := by
  simp [State.instrAddr]

end Sys2Proof.Machine
end

