-- ==== Sys2Proof/Laws/Memory.lean ====
section
/-! SUPPORT. Memory: a read after a write, every other cell left alone, and the canonical form kept
by every operation. -/

namespace Sys2Proof.Machine

open Sys2Proof

/-! ## Read after write, for a half cell -/

theorem Memory.readByte_erase_same (m : Memory) (k : Nat) :
    (m.erase k).readByte k = unlistedByte := by
  induction m with
  | nil => rfl
  | cons e rest ih =>
    unfold Memory.erase at ih ⊢
    by_cases h : e.1 = k
    · simpa [h] using ih
    · simpa [h, Memory.readByte] using ih

theorem Memory.readByte_erase_other (m : Memory) {k j : Nat} (h : j ≠ k) :
    (m.erase k).readByte j = m.readByte j := by
  induction m with
  | nil => rfl
  | cons e rest ih =>
    unfold Memory.erase at ih ⊢
    by_cases hk : e.1 = k
    · simpa [hk, Memory.readByte, h.symm] using ih
    · simp [hk, Memory.readByte, ih]

theorem Memory.readByte_insert_other (m : Memory) {k j : Nat} (b : Byte) (h : j ≠ k) :
    (m.insert k b).readByte j = m.readByte j := by
  induction m with
  | nil => simp [Memory.insert, Memory.readByte, h.symm]
  | cons e rest ih =>
    by_cases hk : k < e.1
    · simp [Memory.insert, hk, Memory.readByte, h.symm]
    · simp [Memory.insert, hk, Memory.readByte, ih]

theorem Memory.readByte_insert_erase_same (m : Memory) (k : Nat) (b : Byte) :
    ((m.erase k).insert k b).readByte k = b := by
  induction m with
  | nil => simp [Memory.erase, Memory.insert, Memory.readByte]
  | cons e rest ih =>
    unfold Memory.erase at ih ⊢
    by_cases h : e.1 = k
    · simpa [h] using ih
    · by_cases hk : k < e.1
      · simp [h, Memory.insert, hk, Memory.readByte]
      · simpa [h, Memory.insert, hk, Memory.readByte] using ih

theorem Memory.readByte_writeByte_same (m : Memory) (k : Nat) (b : Byte) :
    (m.writeByte k b).readByte k = b := by
  unfold Memory.writeByte
  split
  · next h => rw [h, m.readByte_erase_same]
  · exact m.readByte_insert_erase_same k b

theorem Memory.readByte_writeByte_other (m : Memory) {k j : Nat} (b : Byte) (h : j ≠ k) :
    (m.writeByte k b).readByte j = m.readByte j := by
  unfold Memory.writeByte
  split
  · exact m.readByte_erase_other h
  · rw [Memory.readByte_insert_other _ _ h, m.readByte_erase_other h]

/-! ## Read after write, for a cell -/

@[simp] theorem Memory.readCell_nil (a : Word) : Memory.readCell [] a = 0#16 := by
  simp [Memory.readCell, Memory.readByte, unlistedByte]

@[simp] theorem Memory.readCell_writeCell_same (m : Memory) (a v : Word) :
    (m.writeCell a v).readCell a = v := by
  unfold Memory.readCell Memory.writeCell
  rw [Memory.readByte_writeByte_same, Memory.readByte_writeByte_other _ _ (by omega),
    Memory.readByte_writeByte_same]
  apply BitVec.eq_of_getLsbD_eq
  intro i hi
  rw [BitVec.getLsbD_append, BitVec.getLsbD_extractLsb', BitVec.getLsbD_extractLsb']
  by_cases h : i < 8
  · simp [h]
  · have h8 : i - 8 < 8 := by omega
    simp [h, h8, Nat.add_sub_cancel' (Nat.le_of_not_lt h)]

@[simp] theorem Memory.readCell_writeCell_other (m : Memory) {a c : Word} (v : Word) (h : c ≠ a) :
    (m.writeCell a v).readCell c = m.readCell c := by
  have hn : c.toNat ≠ a.toNat := fun e => h (BitVec.eq_of_toNat_eq e)
  unfold Memory.readCell Memory.writeCell
  repeat rw [Memory.readByte_writeByte_other _ _ (by omega)]

@[simp] theorem State.cell_writeCell_same (s : State) (a v : Word) :
    (s.writeCell a v).cell a = v := s.mem.readCell_writeCell_same a v

@[simp] theorem State.cell_writeCell_other (s : State) {a c : Word} (v : Word) (h : c ≠ a) :
    (s.writeCell a v).cell c = s.cell c := s.mem.readCell_writeCell_other v h

/-! ## The canonical form -/

theorem Memory.wfFrom_mono {lo lo' : Nat} (h : lo' ≤ lo) {m : Memory}
    (hm : m.wfFrom lo = true) : m.wfFrom lo' = true := by
  cases m with
  | nil => rfl
  | cons e rest =>
    simp only [Memory.wfFrom, Bool.and_eq_true, decide_eq_true_eq] at hm ⊢
    exact ⟨⟨⟨by omega, hm.1.1.2⟩, hm.1.2⟩, hm.2⟩

theorem Memory.wfFrom_erase {m : Memory} {lo : Nat} (k : Nat) (hm : m.wfFrom lo = true) :
    (m.erase k).wfFrom lo = true := by
  induction m generalizing lo with
  | nil => rfl
  | cons e rest ih =>
    simp only [Memory.wfFrom, Bool.and_eq_true, decide_eq_true_eq] at hm
    have hr := ih hm.2
    unfold Memory.erase at hr ⊢
    by_cases h : e.1 = k
    · simpa [h] using Memory.wfFrom_mono (by omega) hr
    · simp only [List.filter_cons, h, decide_false, Bool.not_false, if_true, Memory.wfFrom,
        Bool.and_eq_true, decide_eq_true_eq]
      exact ⟨hm.1, hr⟩

theorem Memory.wfFrom_insert {m : Memory} {lo k : Nat} {b : Byte} (hm : m.wfFrom lo = true)
    (hlo : lo ≤ k) (hk : k < Memory.keyCount) (hb : b ≠ unlistedByte)
    (hfree : ∀ e ∈ m, e.1 ≠ k) : (m.insert k b).wfFrom lo = true := by
  induction m generalizing lo with
  | nil => simp [Memory.insert, Memory.wfFrom, hlo, hk, hb]
  | cons e rest ih =>
    have hm' := hm
    simp only [Memory.wfFrom, Bool.and_eq_true, decide_eq_true_eq] at hm
    have hne : e.1 ≠ k := hfree e (by simp)
    by_cases h : k < e.1
    · simp only [Memory.insert, h, if_true, Memory.wfFrom, Bool.and_eq_true, decide_eq_true_eq,
        bne_iff_ne, ne_eq, hb, not_false_eq_true, and_true, hlo, hk, true_and]
      exact ⟨⟨⟨by omega, hm.1.1.2⟩, by simpa using hm.1.2⟩, hm.2⟩
    · have hr := ih (lo := e.1 + 1) hm.2 (by omega) fun x hx => hfree x (by simp [hx])
      simp only [Memory.insert, h, if_false, Memory.wfFrom, Bool.and_eq_true, decide_eq_true_eq]
      exact ⟨hm.1, hr⟩

theorem Memory.wf_writeByte {m : Memory} {k : Nat} (b : Byte) (hm : m.wf = true)
    (hk : k < Memory.keyCount) : (m.writeByte k b).wf = true := by
  have he := Memory.wfFrom_erase k hm
  unfold Memory.writeByte
  split
  · exact he
  · next hb =>
    exact Memory.wfFrom_insert he (Nat.zero_le k) hk hb fun e h => by
      simpa using (List.mem_filter.mp h).2

theorem Memory.wf_writeCell {m : Memory} (a v : Word) (hm : m.wf = true) :
    (m.writeCell a v).wf = true := by
  have ha := a.isLt
  exact Memory.wf_writeByte _ (Memory.wf_writeByte _ hm (by unfold Memory.keyCount; omega))
    (by unfold Memory.keyCount; omega)

@[simp] theorem Memory.wf_nil : Memory.wf [] = true := rfl

theorem Memory.wf_loadWords {m : Memory} (k : Nat) (ws : List Word) (hm : m.wf = true) :
    (m.loadWords k ws).wf = true := by
  induction ws generalizing m k with
  | nil => exact hm
  | cons w rest ih =>
    unfold Memory.loadWords
    split
    · exact ih _ (Memory.wf_writeCell _ _ hm)
    · exact hm

/-! ## Equal memories are equal data -/

theorem Memory.readByte_of_lt {m : Memory} {lo k : Nat} (hm : m.wfFrom lo = true) (hk : k < lo) :
    m.readByte k = unlistedByte := by
  induction m generalizing lo with
  | nil => rfl
  | cons e rest ih =>
    simp only [Memory.wfFrom, Bool.and_eq_true, decide_eq_true_eq] at hm
    have : e.1 ≠ k := by omega
    simpa [Memory.readByte, this] using ih hm.2 (by omega)

end Sys2Proof.Machine
end

