-- ==== Sys2Proof/Laws/Bus.lean ====
section
/-! SUPPORT. The bus read and the console read: each said once. -/

namespace Sys2Proof.Machine

open Sys2Proof

/-- Everything a bus read can do (20_memory.md R53): away from KBSR nothing; at KBSR with an empty
queue the cell is zeroed; with a key the key is taken into KBDR and KBSR says so. -/
theorem State.memRead_cases (s : State) (a : Word) :
    (a ≠ kbsrAddr ∧ s.memRead a = (s.cell a, s)) ∨
    (a = kbsrAddr ∧ s.input = [] ∧ s.memRead a = (0#16, s.writeCell kbsrAddr 0#16)) ∨
    (∃ c rest, a = kbsrAddr ∧ s.input = c :: rest ∧
      s.memRead a = (kbsrReady, ({ s with input := rest }.writeCell kbsrAddr kbsrReady).writeCell
        kbdrAddr (zext8 c))) := by
  have hne : kbsrAddr ≠ kbdrAddr := by decide
  by_cases h : a = kbsrAddr
  · subst h
    unfold State.memRead State.pollKeyboard
    cases hi : s.input with
    | nil => simp
    | cons c rest => simp [hne]
  · exact .inl ⟨h, by simp [State.memRead, h]⟩

theorem State.memRead_ne (s : State) {a : Word} (h : a ≠ kbsrAddr) :
    s.memRead a = (s.cell a, s) := by simp [State.memRead, h]

theorem State.memRead_kbsr_nil (s : State) (h : s.input = []) :
    s.memRead kbsrAddr = (0#16, s.writeCell kbsrAddr 0#16) := by
  rcases s.memRead_cases kbsrAddr with ⟨hn, -⟩ | ⟨-, -, e⟩ | ⟨c, rest, -, hi, -⟩
  · exact absurd rfl hn
  · exact e
  · simp [h] at hi

theorem State.memRead_kbsr_cons (s : State) {c : Byte} {rest : List Byte}
    (h : s.input = c :: rest) :
    s.memRead kbsrAddr = (kbsrReady, ({ s with input := rest }.writeCell kbsrAddr
      kbsrReady).writeCell kbdrAddr (zext8 c)) := by
  rcases s.memRead_cases kbsrAddr with ⟨hn, -⟩ | ⟨-, hi, -⟩ | ⟨c', rest', -, hi, e⟩
  · exact absurd rfl hn
  · simp [h] at hi
  · rw [h] at hi; cases hi; exact e

/-! ## What a bus read leaves unchanged -/

section frame

variable (s : State) (a : Word)

/-- A bus read changes memory and the queue at most. -/
theorem State.memRead_frame :
    (s.memRead a).2 = { s with mem := (s.memRead a).2.mem, input := (s.memRead a).2.input } := by
  rcases s.memRead_cases a with ⟨-, e⟩ | ⟨-, -, e⟩ | ⟨c, rest, -, -, e⟩ <;> rw [e] <;> rfl

@[simp] theorem State.memRead_regs : (s.memRead a).2.regs = s.regs := by rw [s.memRead_frame]
@[simp] theorem State.memRead_reg (r : Reg) : (s.memRead a).2.reg r = s.reg r := by
  rw [s.memRead_frame]; rfl
@[simp] theorem State.memRead_pc : (s.memRead a).2.pc = s.pc := by rw [s.memRead_frame]
@[simp] theorem State.memRead_cond : (s.memRead a).2.cond = s.cond := by rw [s.memRead_frame]
@[simp] theorem State.memRead_run : (s.memRead a).2.run = s.run := by rw [s.memRead_frame]
@[simp] theorem State.memRead_fault : (s.memRead a).2.fault = s.fault := by rw [s.memRead_frame]
@[simp] theorem State.memRead_anomalies : (s.memRead a).2.anomalies = s.anomalies := by
  rw [s.memRead_frame]
@[simp] theorem State.memRead_inputEnded : (s.memRead a).2.inputEnded = s.inputEnded := by
  rw [s.memRead_frame]
@[simp] theorem State.memRead_output : (s.memRead a).2.output = s.output := by
  rw [s.memRead_frame]
@[simp] theorem State.memRead_irqPending : (s.memRead a).2.irqPending = s.irqPending := by
  rw [s.memRead_frame]
@[simp] theorem State.memRead_config : (s.memRead a).2.config = s.config := by
  rw [s.memRead_frame]

/-- The queue after a bus read is the old one or its tail. -/
theorem State.memRead_input_suffix : (s.memRead a).2.input <:+ s.input := by
  rcases s.memRead_cases a with ⟨-, e⟩ | ⟨-, -, e⟩ | ⟨c, rest, -, hi, e⟩
  · simp [e]
  · simp [e]
  · simp [e, hi]

theorem State.memRead_wf (h : s.mem.wf = true) : (s.memRead a).2.mem.wf = true := by
  rcases s.memRead_cases a with ⟨-, e⟩ | ⟨-, -, e⟩ | ⟨c, rest, -, -, e⟩
  · simpa [e] using h
  · simpa [e] using Memory.wf_writeCell _ _ h
  · simpa [e] using Memory.wf_writeCell _ _ (Memory.wf_writeCell _ _ h)

/-- The value read is what the cell holds afterwards. -/
theorem State.memRead_value : (s.memRead a).1 = (s.memRead a).2.cell a := by
  have hne : kbsrAddr ≠ kbdrAddr := by decide
  rcases s.memRead_cases a with ⟨-, e⟩ | ⟨h, -, e⟩ | ⟨c, rest, h, -, e⟩ <;> rw [e]
  · simp [h]
  · simp [h, hne]

end frame

/-! ## The console read -/

/-- Everything `read_char()` can answer (45_execution_cycle.md R187). -/
theorem State.readChar_cases (s : State) :
    (∃ c rest, s.input = c :: rest ∧ s.readChar = some (c, { s with input := rest })) ∨
    (∃ v, s.input = [] ∧ s.inputEnded = true ∧ s.config.eofBehaviour = .value v ∧
      s.readChar = some (v, s)) ∨
    (s.input = [] ∧ (s.inputEnded = false ∨ s.config.eofBehaviour = .block) ∧
      s.readChar = none) := by
  unfold State.readChar
  cases hi : s.input with
  | cons c rest => simp
  | nil =>
    cases he : s.inputEnded <;> cases hb : s.config.eofBehaviour <;> simp

@[simp] theorem State.readChar_writeReg (s : State) (i : Reg) (v : Word) :
    (s.writeReg i v).readChar = s.readChar.map fun r => (r.1, r.2.writeReg i v) := by
  unfold State.readChar
  simp only [State.writeReg_input, State.writeReg_inputEnded, State.writeReg_config]
  cases hi : s.input with
  | cons c rest => rfl
  | nil => cases he : s.inputEnded <;> cases hb : s.config.eofBehaviour <;> rfl

@[simp] theorem State.readChar_writeChars (s : State) (bs : List Byte) :
    (s.writeChars bs).readChar = s.readChar.map fun r => (r.1, r.2.writeChars bs) := by
  unfold State.readChar
  simp only [State.writeChars_input, State.writeChars_inputEnded, State.writeChars_config]
  cases hi : s.input with
  | cons c rest => rfl
  | nil => cases he : s.inputEnded <;> cases hb : s.config.eofBehaviour <;> rfl

end Sys2Proof.Machine
end

