-- ==== Sys2Proof/Laws/Registers.lean ====
section
/-! SUPPORT. Reading and writing registers, and the flag of a written result. -/

namespace Sys2Proof.Machine

open Sys2Proof

@[simp] theorem RegFile.read_write_same (f : RegFile) (i : Reg) (v : Word) :
    (f.write i v).read i = v := by cases i <;> rfl

@[simp] theorem RegFile.read_write_other (f : RegFile) {i j : Reg} (v : Word) (h : j ≠ i) :
    (f.write i v).read j = f.read j := by cases i <;> cases j <;> first | rfl | exact absurd rfl h

@[simp] theorem State.reg_writeReg_same (s : State) (i : Reg) (v : Word) :
    (s.writeReg i v).reg i = v := s.regs.read_write_same i v

@[simp] theorem State.reg_writeReg_other (s : State) {i j : Reg} (v : Word) (h : j ≠ i) :
    (s.writeReg i v).reg j = s.reg j := s.regs.read_write_other v h

theorem State.reg_writeReg (s : State) (i j : Reg) (v : Word) :
    (s.writeReg i v).reg j = if j = i then v else s.reg j := by
  split
  · subst_vars; simp
  · simp [*]

/-- The later of two writes to a register is the one that counts. -/
@[simp] theorem State.writeReg_writeReg_same (s : State) (i : Reg) (v w : Word) :
    (s.writeReg i v).writeReg i w = s.writeReg i w := by cases i <;> rfl

/-- Writes to different registers commute. -/
theorem State.writeReg_comm (s : State) {i j : Reg} (v w : Word) (h : i ≠ j) :
    (s.writeReg i v).writeReg j w = (s.writeReg j w).writeReg i v := by
  cases i <;> cases j <;> first | rfl | exact absurd rfl h

/-- Two register files that read the same are the same. -/
theorem RegFile.ext_read {f g : RegFile} (h : ∀ i, f.read i = g.read i) : f = g := by
  cases f; cases g
  have h0 := h .r0; have h1 := h .r1; have h2 := h .r2; have h3 := h .r3
  have h4 := h .r4; have h5 := h .r5; have h6 := h .r6; have h7 := h .r7
  simp only [RegFile.read] at h0 h1 h2 h3 h4 h5 h6 h7
  simp [*]

/-- `flagsOf` by cases, the three rows of 40_operate.md R114. -/
theorem flagsOf_cases (v : Word) :
    (v = 0#16 ∧ flagsOf v = flZ) ∨ (v ≠ 0#16 ∧ v.getLsbD 15 = true ∧ flagsOf v = flN) ∨
      (v ≠ 0#16 ∧ v.getLsbD 15 = false ∧ flagsOf v = flP) := by
  unfold flagsOf
  by_cases h0 : v = 0#16
  · simp [h0]
  · by_cases h1 : v.getLsbD 15 = true <;> simp_all

/-- A computed flag is one-hot, whatever the result. -/
@[simp] theorem condOneHot_flagsOf (v : Word) : condOneHot (flagsOf v) = true := by
  rcases flagsOf_cases v with ⟨-, h⟩ | ⟨-, -, h⟩ | ⟨-, -, h⟩ <;> rw [h] <;> decide

theorem condOneHot_iff (c : BitVec 3) :
    condOneHot c = true ↔ c = flN ∨ c = flZ ∨ c = flP := by
  simp [condOneHot, or_assoc]

/-- With a one-hot COND the BR test reads one mask bit (41_control.md R120). -/
theorem brTaken_oneHot (n z p : Bool) :
    brTaken (brMask n z p) flN = n ∧ brTaken (brMask n z p) flZ = z ∧
      brTaken (brMask n z p) flP = p := by
  revert n z p; decide

end Sys2Proof.Machine
end

