-- ==== Sys2Proof/Laws/Cycle.lean ====
section
/-! SUPPORT. What one step can do, said once, and how to show something of every reachable state. -/

namespace Sys2Proof.Machine

open Sys2Proof

/-- Everything a step does first (60_exceptions.md R206). -/
theorem State.cycleAction_cases (s : State) :
    (s.run ≠ .running ∧ s.cycleAction = .stopped) ∨
    (s.run = .running ∧ s.irqPending = true ∧ s.cycleAction = .interrupt) ∨
    (s.run = .running ∧ s.irqPending = false ∧ s.heldForInput = true ∧ s.cycleAction = .hold) ∨
    (s.run = .running ∧ s.irqPending = false ∧ s.heldForInput = false ∧
      s.cycleAction = .execute) := by
  unfold State.cycleAction
  by_cases hr : s.run = .running
  · cases hi : s.irqPending <;> cases hh : s.heldForInput <;> simp [hr]
  · simp [hr]

/-- Everything a step that answers a next state can do: nothing in a terminal state or while held,
the interrupt, or the decoded instruction. -/
theorem step_cases {s t : State} (h : step s = .next t) :
    (s.run ≠ .running ∧ t = s) ∨
    (s.run = .running ∧ s.irqPending = true ∧ t = s.takeInterrupt) ∨
    (s.run = .running ∧ s.irqPending = false ∧ s.heldForInput = true ∧ t = s) ∨
    (s.run = .running ∧ s.irqPending = false ∧ s.heldForInput = false ∧
      exec (decodeWord s.fetch.1) s.fetch.2 = .next t) := by
  unfold step at h
  rcases s.cycleAction_cases with ⟨hr, e⟩ | ⟨hr, hi, e⟩ | ⟨hr, hi, hh, e⟩ | ⟨hr, hi, hh, e⟩ <;>
    rw [e] at h
  · cases h; exact .inl ⟨hr, rfl⟩
  · cases h; exact .inr (.inl ⟨hr, hi, rfl⟩)
  · cases h; exact .inr (.inr (.inl ⟨hr, hi, hh, rfl⟩))
  · exact .inr (.inr (.inr ⟨hr, hi, hh, h⟩))

/-! ## The fetch -/

section fetch

variable (s : State)

@[simp] theorem State.fetch_pc : s.fetch.2.pc = s.pc + 1#16 := rfl
@[simp] theorem State.fetch_word : s.fetch.1 = (s.memRead s.pc).1 := rfl
@[simp] theorem State.fetch_mem : s.fetch.2.mem = (s.memRead s.pc).2.mem := rfl
@[simp] theorem State.fetch_input : s.fetch.2.input = (s.memRead s.pc).2.input := rfl
@[simp] theorem State.fetch_regs : s.fetch.2.regs = s.regs := s.memRead_regs s.pc
@[simp] theorem State.fetch_reg (r : Reg) : s.fetch.2.reg r = s.reg r := s.memRead_reg s.pc r
@[simp] theorem State.fetch_cond : s.fetch.2.cond = s.cond := s.memRead_cond s.pc
@[simp] theorem State.fetch_run : s.fetch.2.run = s.run := s.memRead_run s.pc
@[simp] theorem State.fetch_fault : s.fetch.2.fault = s.fault := s.memRead_fault s.pc
@[simp] theorem State.fetch_anomalies : s.fetch.2.anomalies = s.anomalies :=
  s.memRead_anomalies s.pc
@[simp] theorem State.fetch_inputEnded : s.fetch.2.inputEnded = s.inputEnded :=
  s.memRead_inputEnded s.pc
@[simp] theorem State.fetch_output : s.fetch.2.output = s.output := s.memRead_output s.pc
@[simp] theorem State.fetch_irqPending : s.fetch.2.irqPending = s.irqPending :=
  s.memRead_irqPending s.pc
@[simp] theorem State.fetch_config : s.fetch.2.config = s.config := s.memRead_config s.pc

/-- Away from KBSR the fetch reads the raw cell and moves the PC only. -/
theorem State.fetch_ne (h : s.pc ≠ kbsrAddr) : s.fetch = (s.cell s.pc, s.setPc (s.pc + 1#16)) := by
  simp [State.fetch, s.memRead_ne h]

/-- In the state a cell write leaves, a fetch at that cell, not KBSR, gives the value written. -/
theorem State.fetchGives_writeCell {a : Word} (v : Word) (h : a ≠ kbsrAddr) :
    FetchGives (s.writeCell a v) a v := by
  refine ⟨by simp [State.memRead_ne _ h], fun e => ?_⟩
  rw [State.fetch_word, ← e, State.memRead_ne _ h, State.cell_writeCell_same]

end fetch

/-! ## Every reachable state -/

/-- What boot gives and every step and host act keeps holds of every reachable state. -/
theorem Reachable.of_kept {P : State → Prop} (hboot : ∀ c ims, P (boot c ims))
    (hstep : ∀ s t, P s → step s = .next t → P t) (hhost : ∀ s a, P s → P (HostAction.apply a s))
    {s : State} (h : Reachable s) : P s := by
  induction h with
  | afterBoot c ims => exact hboot c ims
  | afterStep s t _ hs ih => exact hstep s t ih hs
  | afterHost s a _ ih => exact hhost s a ih

/-- What reset gives and every image load keeps holds after boot. -/
theorem boot_of_kept {P : State → Prop} (hreset : ∀ c, P { State.reset with config := c })
    (hload : ∀ s im, P s → P (State.loadImage s im)) (c : Config) (ims : List Image) :
    P (boot c ims) := by
  suffices h : ∀ s, P s → P (ims.foldl State.loadImage s) from h _ (hreset c)
  induction ims with
  | nil => exact fun s hs => hs
  | cons im rest ih => exact fun s hs => ih (s.loadImage im) (hload s im hs)

end Sys2Proof.Machine
end

