-- ==== Sys2Proof/Laws/Decode.lean ====
section
/-! SUPPORT. Register fields, and the bits of an encoded word. -/

namespace Sys2Proof

@[simp] theorem Reg.ofBits_toBits (r : Reg) : Reg.ofBits r.toBits = r := by cases r <;> rfl

@[simp] theorem Reg.toBits_ofBits (b : BitVec 3) : (Reg.ofBits b).toBits = b := by
  revert b; decide

theorem Reg.toBits_injective {r r' : Reg} (h : r.toBits = r'.toBits) : r = r' := by
  rw [← Reg.ofBits_toBits r, h, Reg.ofBits_toBits]

/-- The sixteen opcodes (30_encoding.md R82). -/
theorem opcode_cases (b : BitVec 4) :
    b = 0#4 ∨ b = 1#4 ∨ b = 2#4 ∨ b = 3#4 ∨ b = 4#4 ∨ b = 5#4 ∨ b = 6#4 ∨ b = 7#4 ∨ b = 8#4 ∨
      b = 9#4 ∨ b = 10#4 ∨ b = 11#4 ∨ b = 12#4 ∨ b = 13#4 ∨ b = 14#4 ∨ b = 15#4 := by
  revert b; decide

/-- Opcode 1111 is TRAP, by its low byte. -/
theorem decodeWord_of_trap {w : Word} (h : opcodeField w = 0b1111#4) :
    decodeWord w = decodeTrap (vectorField w) := by
  unfold decodeWord
  rw [h]
  rfl

/-- The TrapTable as a chain of tests. -/
theorem decodeTrap_eq (v : BitVec 8) : decodeTrap v =
    if v = 0x20#8 then .trapGetc else if v = 0x21#8 then .trapOut
    else if v = 0x22#8 then .trapPuts else if v = 0x23#8 then .trapIn
    else if v = 0x24#8 then .trapPutsp else if v = 0x25#8 then .trapHalt
    else .trapUnhandled v := by
  revert v; decide +kernel

/-- A TRAP vector with no TrapTable entry decodes to itself (43_trap.md R158). -/
theorem decodeTrap_unhandled {v : BitVec 8} (h : isHandledVector v = false) :
    decodeTrap v = .trapUnhandled v := by
  unfold decodeTrap
  split <;> first | rfl | exact absurd h (by decide)

/-- A decoded TRAP is well-formed: an unhandled vector is none of the six. -/
theorem decodeTrap_wellFormed (v : BitVec 8) : (decodeTrap v).wellFormed = true := by
  revert v; decide +kernel

end Sys2Proof
end

