-- ==== Sys2Proof/Laws/Strings.lean ====
section
/-! SUPPORT. The string walk: it always meets an end, and what it can change. -/

namespace Sys2Proof.Machine

open Sys2Proof

/-- How many cells a walk from `a` reads before it comes to KBSR. -/
def distToKbsr (a : Word) : Nat := (kbsrAddr - a).toNat

theorem distToKbsr_succ {a : Word} (h : a ≠ kbsrAddr) :
    distToKbsr (a + 1#16) + 1 = distToKbsr a := by
  unfold distToKbsr kbsrAddr at *
  bv_omega

/-- With fuel for the cells up to KBSR and one turn of the address space per queued key, the walk
meets an end: at KBSR an empty queue reads as zero, and each turn takes a key. -/
theorem State.walkString_isSome (emit : Word → List Byte × Bool) (fuel : Nat) (a : Word)
    (s : State) (h : 65536 * s.input.length + distToKbsr a < fuel) :
    (State.walkString emit fuel a s).isSome = true := by
  induction fuel generalizing a s with
  | zero => omega
  | succ n ih =>
    unfold State.walkString
    split
    · rfl
    · next hv =>
      split
      · rfl
      · apply ih
        rw [State.writeChars_input]
        rcases s.memRead_cases a with ⟨ha, e⟩ | ⟨-, -, e⟩ | ⟨c, rest, ha, hi, e⟩
        · rw [e]; have := distToKbsr_succ ha; simp only; omega
        · rw [e] at hv; exact absurd rfl hv
        · rw [e, ha]
          have hd : distToKbsr (kbsrAddr + 1#16) = 65535 := by decide
          simp only [State.writeCell_input, hd]
          rw [hi, List.length_cons] at h
          omega

/-- `walkFuel` is enough for any pointer. -/
theorem State.walkString_walkFuel (emit : Word → List Byte × Bool) (a : Word) (s : State) :
    ∃ t, State.walkString emit s.walkFuel a s = some t := by
  rw [← Option.isSome_iff_exists]
  apply State.walkString_isSome
  have : distToKbsr a < 65536 := (kbsrAddr - a).isLt
  unfold State.walkFuel
  omega

/-- What a walk can change: memory and the queue by its reads, the output by appending. -/
theorem State.walkString_frame (emit : Word → List Byte × Bool) {fuel : Nat} {a : Word}
    {s t : State} (h : State.walkString emit fuel a s = some t) :
    t = { s with mem := t.mem, input := t.input, output := t.output } ∧
      s.output <+: t.output ∧ t.input <:+ s.input ∧ (s.mem.wf = true → t.mem.wf = true) := by
  induction fuel generalizing a s with
  | zero => simp [State.walkString] at h
  | succ n ih =>
    unfold State.walkString at h
    have hfr := s.memRead_frame a
    split at h
    · cases h
      exact ⟨by simpa using hfr, by simp, s.memRead_input_suffix a, s.memRead_wf a⟩
    · split at h
      · cases h
        refine ⟨?_, by simp, by simpa using s.memRead_input_suffix a, s.memRead_wf a⟩
        rw [hfr]; rfl
      · obtain ⟨h1, h2, h3, h4⟩ := ih h
        refine ⟨?_, ?_, ?_, ?_⟩
        · rw [h1, hfr]; rfl
        · exact List.IsPrefix.trans (by simp) h2
        · exact h3.trans (by simpa using s.memRead_input_suffix a)
        · exact fun hw => h4 (s.memRead_wf a hw)

end Sys2Proof.Machine
end

