-- ==== Sys2Proof/Laws/Exec.lean ====
section
/-! SUPPORT. One equation per instruction: what `exec` answers, over the shared updates. -/

namespace Sys2Proof.Machine

open Sys2Proof

section operate

variable (s : State) (dr sr1 sr2 : Reg) (imm5 : BitVec 5)

theorem exec_addReg : exec (.addReg dr sr1 sr2) s =
    .next ((s.writeReg dr (s.reg sr1 + s.reg sr2)).setcc dr) := rfl

theorem exec_addImm : exec (.addImm dr sr1 imm5) s =
    .next ((s.writeReg dr (s.reg sr1 + sext imm5)).setcc dr) := rfl

theorem exec_andReg : exec (.andReg dr sr1 sr2) s =
    .next ((s.writeReg dr (s.reg sr1 &&& s.reg sr2)).setcc dr) := rfl

theorem exec_andImm : exec (.andImm dr sr1 imm5) s =
    .next ((s.writeReg dr (s.reg sr1 &&& sext imm5)).setcc dr) := rfl

theorem exec_not : exec (.not dr sr1) s =
    .next ((s.writeReg dr (~~~(s.reg sr1))).setcc dr) := rfl

end operate

section control

variable (s : State) (base : Reg)

theorem exec_br (n z p : Bool) (off : BitVec 9) : exec (.br n z p off) s =
    .next (if brTaken (brMask n z p) s.cond then s.setPc (s.pc + sext off) else s) := rfl

theorem exec_jmp : exec (.jmp base) s = .next (s.setPc (s.reg base)) := rfl

theorem exec_jsr (off : BitVec 11) : exec (.jsr off) s =
    .next ((s.writeReg .r7 s.pc).setPc (s.pc + sext off)) := rfl

theorem exec_jsrr : exec (.jsrr base) s =
    .next ((s.writeReg .r7 s.pc).setPc (if base = .r7 then s.pc else s.reg base)) := by
  rw [← s.reg_writeReg .r7 base s.pc]; rfl

end control

section memory

variable (s : State) (r base : Reg) (off : BitVec 9) (off6 : BitVec 6)

theorem exec_ld : exec (.ld r off) s =
    .next (((s.memRead (s.pc + sext off)).2.writeReg r (s.memRead (s.pc + sext off)).1).setcc r) :=
  rfl

theorem exec_ldi : exec (.ldi r off) s =
    let pointer := s.memRead (s.pc + sext off)
    let data := pointer.2.memRead pointer.1
    .next ((data.2.writeReg r data.1).setcc r) := rfl

theorem exec_ldr : exec (.ldr r base off6) s =
    let data := s.memRead (s.reg base + sext off6)
    .next ((data.2.writeReg r data.1).setcc r) := rfl

theorem exec_lea : exec (.lea r off) s =
    .next ((s.writeReg r (s.pc + sext off)).setcc r) := rfl

theorem exec_st : exec (.st r off) s =
    .next (s.writeCell (s.pc + sext off) (s.reg r)) := rfl

theorem exec_sti : exec (.sti r off) s =
    let pointer := s.memRead (s.pc + sext off)
    .next (pointer.2.writeCell pointer.1 (s.reg r)) := rfl

theorem exec_str : exec (.str r base off6) s =
    .next (s.writeCell (s.reg base + sext off6) (s.reg r)) := rfl

end memory

section trap

variable (s : State)

/-- GETC with a character `c` to read. -/
theorem exec_trapGetc_of_char {c : Byte} {s' : State} (h : s.readChar = some (c, s')) :
    exec .trapGetc s = .next ((((s'.writeReg .r7 s.pc).writeChars s.config.getcPrompt).writeReg .r0
      (zext8 c)).setcc .r0) := by
  simp [exec, execTrapGetc, h]

/-- GETC with none: held. -/
theorem exec_trapGetc_of_none (h : s.readChar = none) :
    exec .trapGetc s = .next (s.setPc s.instrAddr) := by
  simp [exec, execTrapGetc, h]

/-- IN with a character `c` to read. -/
theorem exec_trapIn_of_char {c : Byte} {s' : State} (h : s.readChar = some (c, s')) :
    exec .trapIn s = .next (((((s'.writeReg .r7 s.pc).writeChars s.config.inPrompt).writeChar
      c).writeReg .r0 (zext8 c)).setcc .r0) := by
  simp [exec, execTrapIn, h]

/-- IN with none: held. -/
theorem exec_trapIn_of_none (h : s.readChar = none) :
    exec .trapIn s = .next (s.setPc s.instrAddr) := by
  simp [exec, execTrapIn, h]

theorem exec_trapOut : exec .trapOut s =
    .next ((s.writeReg .r7 s.pc).writeChar (lowByte (s.reg .r0))) := rfl

/-- A string routine answers the state its walk ends in. -/
theorem runStringRoutine_next (emit : Word → List Byte × Bool) :
    ∃ t, State.walkString emit (s.writeReg .r7 s.pc).walkFuel (s.reg .r0)
        (s.writeReg .r7 s.pc) = some t ∧ s.runStringRoutine emit = .next t := by
  obtain ⟨t, ht⟩ := State.walkString_walkFuel emit (s.reg .r0) (s.writeReg .r7 s.pc)
  exact ⟨t, ht, by simp [State.runStringRoutine, ht]⟩

theorem exec_trapHalt : exec .trapHalt s =
    .next ((s.writeReg .r7 s.pc).writeChars s.config.haltNotice).halt := rfl

theorem exec_trapUnhandled (v : BitVec 8) : exec (.trapUnhandled v) s =
    .next ((s.writeReg .r7 s.pc).reportUnhandledTrap v) := rfl

theorem exec_rti : exec .rti s = .next (s.raiseIllegalOpcode 0b1000#4) := rfl

theorem exec_res : exec .res s = .next (s.raiseIllegalOpcode 0b1101#4) := rfl

end trap

end Sys2Proof.Machine
end

