-- ==== Sys2Proof/Laws/PerInstr.lean ====
section
/-! SUPPORT. Family EncodedRow: the word an instruction encodes to selects the instruction's row of the
opcode table, `(w & mask) = match` (30_encoding.md R98). One lemma per constructor. -/

namespace Sys2Proof.Laws.EncodedRow

open Sys2Proof

def Statement (i : Instr) : Prop := i.wellFormed = true → i.row.selects (encode i) = true

/-- The row test, bit by bit. -/
theorem selects_of_bits {r : TableRow} {w : Word}
    (h : ∀ i < 16, (w &&& r.mask).getLsbD i = r.pattern.getLsbD i) : r.selects w = true := by
  unfold TableRow.selects
  rw [beq_iff_eq]
  exact BitVec.eq_of_getLsbD_eq fun i hi => h i hi

theorem addReg (dr sr1 sr2 : Reg) : Statement (.addReg dr sr1 sr2) :=
  fun _ => selects_of_bits fun i hi => by
    interval_cases i <;> simp [encode, place, Instr.row]

theorem addImm (dr sr1 : Reg) (imm5 : BitVec 5) : Statement (.addImm dr sr1 imm5) :=
  fun _ => selects_of_bits fun i hi => by
    interval_cases i <;> simp [encode, place, Instr.row]

theorem andReg (dr sr1 sr2 : Reg) : Statement (.andReg dr sr1 sr2) :=
  fun _ => selects_of_bits fun i hi => by
    interval_cases i <;> simp [encode, place, Instr.row]

theorem andImm (dr sr1 : Reg) (imm5 : BitVec 5) : Statement (.andImm dr sr1 imm5) :=
  fun _ => selects_of_bits fun i hi => by
    interval_cases i <;> simp [encode, place, Instr.row]

theorem not (dr sr : Reg) : Statement (.not dr sr) :=
  fun _ => selects_of_bits fun i hi => by
    interval_cases i <;> simp [encode, place, Instr.row]

theorem br (n z p : Bool) (off : BitVec 9) : Statement (.br n z p off) :=
  fun _ => selects_of_bits fun i hi => by
    interval_cases i <;> simp [encode, place, Instr.row]

theorem jmp (base : Reg) : Statement (.jmp base) :=
  fun _ => selects_of_bits fun i hi => by
    interval_cases i <;> simp [encode, place, Instr.row]

theorem jsr (off : BitVec 11) : Statement (.jsr off) :=
  fun _ => selects_of_bits fun i hi => by
    interval_cases i <;> simp [encode, place, Instr.row]

theorem jsrr (base : Reg) : Statement (.jsrr base) :=
  fun _ => selects_of_bits fun i hi => by
    interval_cases i <;> simp [encode, place, Instr.row]

theorem ld (dr : Reg) (off : BitVec 9) : Statement (.ld dr off) :=
  fun _ => selects_of_bits fun i hi => by
    interval_cases i <;> simp [encode, place, Instr.row]

theorem ldi (dr : Reg) (off : BitVec 9) : Statement (.ldi dr off) :=
  fun _ => selects_of_bits fun i hi => by
    interval_cases i <;> simp [encode, place, Instr.row]

theorem ldr (dr base : Reg) (off : BitVec 6) : Statement (.ldr dr base off) :=
  fun _ => selects_of_bits fun i hi => by
    interval_cases i <;> simp [encode, place, Instr.row]

theorem lea (dr : Reg) (off : BitVec 9) : Statement (.lea dr off) :=
  fun _ => selects_of_bits fun i hi => by
    interval_cases i <;> simp [encode, place, Instr.row]

theorem st (sr : Reg) (off : BitVec 9) : Statement (.st sr off) :=
  fun _ => selects_of_bits fun i hi => by
    interval_cases i <;> simp [encode, place, Instr.row]

theorem sti (sr : Reg) (off : BitVec 9) : Statement (.sti sr off) :=
  fun _ => selects_of_bits fun i hi => by
    interval_cases i <;> simp [encode, place, Instr.row]

theorem str (sr base : Reg) (off : BitVec 6) : Statement (.str sr base off) :=
  fun _ => selects_of_bits fun i hi => by
    interval_cases i <;> simp [encode, place, Instr.row]

theorem trapGetc : Statement (.trapGetc) :=
  fun _ => by decide

theorem trapOut : Statement (.trapOut) :=
  fun _ => by decide

theorem trapPuts : Statement (.trapPuts) :=
  fun _ => by decide

theorem trapIn : Statement (.trapIn) :=
  fun _ => by decide

theorem trapPutsp : Statement (.trapPutsp) :=
  fun _ => by decide

theorem trapHalt : Statement (.trapHalt) :=
  fun _ => by decide

theorem trapUnhandled (v : BitVec 8) : Statement (.trapUnhandled v) :=
  fun _ => selects_of_bits fun i hi => by
    interval_cases i <;> simp [encode, place, encodeTrap, Instr.row]

theorem rti : Statement (.rti) :=
  fun _ => by decide

theorem res : Statement (.res) :=
  fun _ => by decide

end Sys2Proof.Laws.EncodedRow
end

