-- ==== Sys2Proof/Tests/Slice0.lean ====
section
/-! SUPPORT. Tests: the WellFormed smoke, one hand-written word per instruction form, single steps from
the vectors of spec/95_test_vectors.md (its row named in each docstring), and a witness for the
hypotheses of every statement that has any. -/

namespace Sys2Proof.Machine

open Sys2Proof

/-! ## Helpers -/

/-- The next state of an outcome. -/
def nextOf : Host.Outcome State Fault Refusal → Option State
  | .next t => some t
  | .fault _ => none
  | .refused _ => none

/-- The reset state with PC at `pc` and some cells written. -/
def stateAt (pc : Word) (cells : List (Word × Word)) : State :=
  { State.reset with pc := pc, mem := cells.foldl (fun m e => m.writeCell e.1 e.2) [] }

/-- One instruction word at 0x3000, PC there. -/
def word3000 (w : Word) : State := stateAt 0x3000#16 [(0x3000#16, w)]

/-- Registers R0 and R1 set. -/
def State.with01 (s : State) (v0 v1 : Word) : State := (s.writeReg .r0 v0).writeReg .r1 v1

/-- What a test looks at after one step. -/
def afterStep {α : Type} (f : State → α) (s : State) : Option α := (nextOf (step s)).map f

/-! ## WellFormed: the ill-formed terms are refused, their neighbours are not -/

theorem test_wellFormed_refuses_handled_vectors :
    (Instr.trapUnhandled 0x20#8).wellFormed = false ∧
      (Instr.trapUnhandled 0x25#8).wellFormed = false := by decide

theorem test_wellFormed_accepts_the_neighbours :
    (Instr.trapUnhandled 0x1F#8).wellFormed = true ∧
      (Instr.trapUnhandled 0x26#8).wellFormed = true := by decide

/-! ## Decoding: a word written field by field from 30_encoding.md, for every form -/

theorem test_decode_addReg : decodeWord 0b0001_010_000_0_00_001#16 = .addReg .r2 .r0 .r1 := by
  decide
theorem test_decode_addImm : decodeWord 0b0001_011_100_1_11111#16 = .addImm .r3 .r4 0x1F#5 := by
  decide
theorem test_decode_andReg : decodeWord 0b0101_010_000_0_00_001#16 = .andReg .r2 .r0 .r1 := by
  decide
theorem test_decode_andImm : decodeWord 0b0101_101_110_1_00011#16 = .andImm .r5 .r6 3#5 := by
  decide
theorem test_decode_not : decodeWord 0b1001_001_000_111111#16 = .not .r1 .r0 := by decide
theorem test_decode_br : decodeWord 0b0000_100_000000101#16 = .br true false false 5#9 := by
  decide
theorem test_decode_jmp : decodeWord 0b1100_000_011_000000#16 = .jmp .r3 := by decide
theorem test_decode_jsr : decodeWord 0b0100_1_00000000010#16 = .jsr 2#11 := by decide
theorem test_decode_jsrr : decodeWord 0b0100_0_00_010_000000#16 = .jsrr .r2 := by decide
theorem test_decode_ld : decodeWord 0b0010_001_100000000#16 = .ld .r1 0x100#9 := by decide
theorem test_decode_ldi : decodeWord 0b1010_010_000000001#16 = .ldi .r2 1#9 := by decide
theorem test_decode_ldr : decodeWord 0b0110_010_001_000010#16 = .ldr .r2 .r1 2#6 := by decide
theorem test_decode_lea : decodeWord 0b1110_111_111111111#16 = .lea .r7 0x1FF#9 := by decide
theorem test_decode_st : decodeWord 0b0011_101_000000001#16 = .st .r5 1#9 := by decide
theorem test_decode_sti : decodeWord 0b1011_110_000000001#16 = .sti .r6 1#9 := by decide
theorem test_decode_str : decodeWord 0b0111_010_001_000010#16 = .str .r2 .r1 2#6 := by decide
theorem test_decode_trapGetc : decodeWord 0b1111_0001_00100000#16 = .trapGetc := by decide
theorem test_decode_trapOut : decodeWord 0b1111_0000_00100001#16 = .trapOut := by decide
theorem test_decode_trapPuts : decodeWord 0b1111_0000_00100010#16 = .trapPuts := by decide
theorem test_decode_trapIn : decodeWord 0b1111_0000_00100011#16 = .trapIn := by decide
theorem test_decode_trapPutsp : decodeWord 0b1111_0000_00100100#16 = .trapPutsp := by decide
theorem test_decode_trapHalt : decodeWord 0b1111_1111_00100101#16 = .trapHalt := by decide
theorem test_decode_trapUnhandled :
    decodeWord 0b1111_0000_00100110#16 = .trapUnhandled 0x26#8 := by decide
theorem test_decode_rti : decodeWord 0b1000_101010111100#16 = .rti := by decide
theorem test_decode_res : decodeWord 0b1101_101010111100#16 = .res := by decide

/-- The host's entry to the decoder: the row's width, and nothing wider or with bits past it. -/
theorem test_decodeTableWord :
    decodeTableWord 16 0x1401 = some (.addReg .r2 .r0 .r1) ∧ decodeTableWord 16 0x11401 = none ∧
      decodeTableWord 32 0x1401 = none := by decide

/-- A stream with no word is rejected by name. -/
theorem test_decode_rejects_no_word :
    (match decode [] with | .error .noWord => true | .ok _ => false) = true := by decide

/-! ## Encoding: the assembler's words of 95_test_vectors.md -/

theorem test_encode_ignored_bits : encode (.not .r1 .r0) = 0x923F#16 ∧
    encode (.jmp .r7) = 0xC1C0#16 ∧ encode (.addReg .r2 .r0 .r1) = 0x1401#16 ∧
    encode (.jsrr .r2) = 0x4080#16 ∧ encode .trapHalt = 0xF025#16 := by decide

/-! ## Single steps -/

/-- 95_test_vectors.md S1. -/
theorem test_addReg_wraps : afterStep (fun t => (t.reg .r2, t.pc, t.cond))
    ((word3000 0x1401#16).with01 0xFFFF#16 1#16) = some (0#16, 0x3001#16, flZ) := by decide

/-- 2.1 row `1241`, source also destination. -/
theorem test_addReg_doubles : afterStep (fun t => (t.reg .r1, t.cond))
    ((word3000 0x1241#16).with01 0#16 0x4000#16) = some (0x8000#16, flN) := by decide

/-- 2.1 row `1030`. -/
theorem test_addImm_negative : afterStep (fun t => (t.reg .r0, t.cond))
    ((word3000 0x1030#16).with01 0x10#16 0#16) = some (0#16, flZ) := by decide

/-- 2.1 row `1020`: adding zero recomputes the flags. -/
theorem test_addImm_recomputes_flags : afterStep (fun t => (t.reg .r0, t.cond))
    ((word3000 0x1020#16).with01 0x8000#16 0#16) = some (0x8000#16, flN) := by decide

/-- 2.1 row `5401`. -/
theorem test_andReg : afterStep (fun t => (t.reg .r2, t.cond))
    ((word3000 0x5401#16).with01 0xF0F0#16 0xFF00#16) = some (0xF000#16, flN) := by decide

/-- 2.1 row `5030`: the immediate is sign-extended before the AND. -/
theorem test_andImm_sign_extends : afterStep (fun t => (t.reg .r0, t.cond))
    ((word3000 0x5030#16).with01 0xABCD#16 0#16) = some (0xABC0#16, flN) := by decide

/-- 2.1 row `9200`: bits 5:0 ignored. -/
theorem test_not_ignores_low_bits : afterStep (fun t => (t.reg .r1, t.cond))
    ((word3000 0x9200#16).with01 0xFFFF#16 7#16) = some (0#16, flZ) := by decide

/-- 2.2 row `0FFE` at 0000: the target wraps. -/
theorem test_br_wraps : afterStep State.pc
    { stateAt 0#16 [(0#16, 0x0FFE#16)] with cond := flN } = some 0xFFFF#16 := by decide

/-- S10: BRn with POSITIVE falls through. -/
theorem test_br_not_taken : afterStep State.pc
    { word3000 0x0805#16 with cond := flP } = some 0x3001#16 := by decide

/-- 2.2 row `CEFF`: bits 11:9 and 5:0 ignored. -/
theorem test_jmp_ignores_bits : afterStep State.pc
    ((word3000 0xCEFF#16).writeReg .r3 0x1234#16) = some 0x1234#16 := by decide

/-- 2.2 row `4802` at FFFF: R7 is the wrapped incremented PC. -/
theorem test_jsr_at_the_top : afterStep (fun t => (t.reg .r7, t.pc))
    (stateAt 0xFFFF#16 [(0xFFFF#16, 0x4802#16)]) = some (0#16, 2#16) := by decide

/-- 2.2 row `4C00`: the most negative offset. -/
theorem test_jsr_backward : afterStep (fun t => (t.reg .r7, t.pc))
    (word3000 0x4C00#16) = some (0x3001#16, 0x2C01#16) := by decide

/-- 2.2 row `4080`. -/
theorem test_jsrr : afterStep (fun t => (t.reg .r7, t.pc))
    ((word3000 0x4080#16).writeReg .r2 0x4000#16) = some (0x3001#16, 0x4000#16) := by decide

/-- 2.2 row `41C0`: R7 is written before it is read. -/
theorem test_jsrr_r7 : afterStep (fun t => (t.reg .r7, t.pc))
    ((word3000 0x41C0#16).writeReg .r7 0x5000#16) = some (0x3001#16, 0x3001#16) := by decide

/-- 2.3 row `2100`. -/
theorem test_ld_negative_offset : afterStep (fun t => (t.reg .r0, t.cond))
    (stateAt 0x3000#16 [(0x3000#16, 0x2100#16), (0x2F01#16, 0x8000#16)]) =
      some (0x8000#16, flN) := by decide

/-- 2.3 row `2000` at FFFF. -/
theorem test_ld_wraps : afterStep (fun t => (t.reg .r0, t.pc))
    (stateAt 0xFFFF#16 [(0xFFFF#16, 0x2000#16), (0#16, 0x7777#16)]) =
      some (0x7777#16, 0#16) := by decide

/-- 2.3 row `A001`. -/
theorem test_ldi : afterStep (fun t => (t.reg .r0, t.cond))
    (stateAt 0x3000#16 [(0x3000#16, 0xA001#16), (0x3002#16, 0x4000#16), (0x4000#16, 0x41#16)]) =
      some (0x41#16, flP) := by decide

/-- 2.3 row `A000` via KBSR, a key queued. -/
theorem test_ldi_polls_the_keyboard :
    afterStep (fun t => (t.reg .r0, t.cell 0xFE00#16, t.cell 0xFE02#16, t.input))
      { stateAt 0x3000#16 [(0x3000#16, 0xA000#16), (0x3001#16, 0xFE00#16)] with
        input := [0x6B#8] } = some (0x8000#16, 0x8000#16, 0x6B#16, []) := by decide

/-- 2.3 row `6060`. -/
theorem test_ldr_negative_offset : afterStep (fun t => (t.reg .r0, t.cond))
    ((stateAt 0x3000#16 [(0x3000#16, 0x6060#16), (0xFFF0#16, 0x8001#16)]).writeReg .r1 0x10#16) =
      some (0x8001#16, flN) := by decide

/-- 2.3 row `6240`: the base is the destination. -/
theorem test_ldr_base_is_destination : afterStep (fun t => t.reg .r1)
    ((stateAt 0x3000#16 [(0x3000#16, 0x6240#16), (0x4000#16, 0x5000#16)]).writeReg .r1
      0x4000#16) = some 0x5000#16 := by decide

/-- 2.3 row `E000` at FFFF. -/
theorem test_lea_wraps_to_zero : afterStep (fun t => (t.reg .r0, t.pc, t.cond))
    { stateAt 0xFFFF#16 [(0xFFFF#16, 0xE000#16)] with cond := flP } =
      some (0#16, 0#16, flZ) := by decide

/-- 2.3 row `31FF`: the store overwrites the instruction itself. -/
theorem test_st_over_itself : afterStep (fun t => (t.cell 0x3000#16, t.pc, t.cond))
    ({ word3000 0x31FF#16 with cond := flN }.writeReg .r0 0xF025#16) =
      some (0xF025#16, 0x3001#16, flN) := by decide

/-- 2.3 row `B001`. -/
theorem test_sti : afterStep (fun t => (t.cell 0x4000#16, t.cell 0x3002#16))
    ((stateAt 0x3000#16 [(0x3000#16, 0xB001#16), (0x3002#16, 0x4000#16)]).writeReg .r0
      0x1234#16) = some (0x1234#16, 0x4000#16) := by decide

/-- 2.3 row `B000` to KBSR: a write does not poll. -/
theorem test_sti_to_kbsr_does_not_poll : afterStep (fun t => (t.cell 0xFE00#16, t.input))
    ({ stateAt 0x3000#16 [(0x3000#16, 0xB000#16), (0x3001#16, 0xFE00#16)] with
      input := [0x7A#8] }.writeReg .r0 0x5555#16) = some (0x5555#16, [0x7A#8]) := by decide

/-- 2.3 row `7442`. -/
theorem test_str : afterStep (fun t => (t.cell 0x4002#16, t.cond))
    (((word3000 0x7442#16).writeReg .r1 0x4000#16).writeReg .r2 0xBEEF#16) =
      some (0xBEEF#16, flZ) := by decide

/-- 2.5 row `F020`, kbd = FF: zero-extended, never N. -/
theorem test_getc : afterStep (fun t => (t.reg .r0, t.reg .r7, t.cond, t.input, t.output))
    { word3000 0xF020#16 with input := [0xFF#8] } =
      some (0xFF#16, 0x3001#16, flP, [], []) := by decide

/-- 2.5 row `F020`, queue empty: held, nothing changes. -/
theorem test_getc_held : nextOf (step (word3000 0xF020#16)) = some (word3000 0xF020#16) := by
  decide

/-- 2.5 row `F021`. -/
theorem test_out : afterStep (fun t => (t.reg .r7, t.output))
    ((word3000 0xF021#16).writeReg .r0 0x1241#16) = some (0x3001#16, [0x41#8]) := by decide

/-- 2.5 row `F022` across the top of memory. -/
theorem test_puts_wraps : afterStep (fun t => (t.output, t.reg .r0))
    ((stateAt 0x3000#16 [(0x3000#16, 0xF022#16), (0xFFFF#16, 0x41#16),
      (0#16, 0x42#16)]).writeReg .r0 0xFFFF#16) =
      some ([0x41#8, 0x42#8], 0xFFFF#16) := by decide +kernel

/-- 2.5 row `F022` across FE00 with a key queued: the read of KBSR polls. -/
theorem test_puts_polls_at_kbsr : afterStep (fun t => (t.output, t.input))
    ({ stateAt 0x3000#16 [(0x3000#16, 0xF022#16), (0xFDFF#16, 0x41#16),
      (0xFE01#16, 0x42#16)] with input := [0x6B#8] }.writeReg .r0 0xFDFF#16) =
      some ([0x41#8, 0#8, 0x42#8, 0x6B#8], []) := by decide +kernel

/-- 2.5 row `F023`: the prompt, then the echo. -/
theorem test_in : afterStep (fun t => (t.reg .r0, t.cond, t.output))
    { word3000 0xF023#16 with input := [0x78#8] } =
      some (0x78#16, flP, Config.default.inPrompt ++ [0x78#8]) := by decide

/-- 2.5 row `F024`, odd length: low byte first. -/
theorem test_putsp_odd_length : afterStep State.output
    ((stateAt 0x3000#16 [(0x3000#16, 0xF024#16), (0x3004#16, 0x6548#16),
      (0x3005#16, 0x6C#16)]).writeReg .r0 0x3004#16) =
      some [0x48#8, 0x65#8, 0x6C#8] := by decide +kernel

/-- 2.5 row `F024` with `PUTSP_ZERO_HIGH_STOPS` = true. -/
theorem test_putsp_zero_high_stops : afterStep State.output
    ({ stateAt 0x3000#16 [(0x3000#16, 0xF024#16), (0x4000#16, 0x41#16),
      (0x4001#16, 0x42#16)] with
        config := { Config.default with putspZeroHighStops := true } }.writeReg .r0 0x4000#16) =
      some [0x41#8] := by decide +kernel

/-- 2.5 row `FF25`: bits 11:8 ignored. -/
theorem test_halt : afterStep (fun t => (t.run, t.reg .r7, t.pc, t.output))
    (word3000 0xFF25#16) =
      some (.halted, 0x3001#16, 0x3001#16, [0x48#8, 0x41#8, 0x4C#8, 0x54#8, 0x0A#8]) := by decide

/-- 2.5 row `F026`. -/
theorem test_unhandled : afterStep (fun t => (t.run, t.reg .r7, t.anomalies))
    (word3000 0xF026#16) = some (.running, 0x3001#16, [⟨0x3000#16, 0x26#8⟩]) := by decide

/-- 2.6 row `8FFF`. -/
theorem test_rti : afterStep (fun t => (t.run, t.fault, t.pc, t.reg .r7))
    (word3000 0x8FFF#16) = some (.faulted, some ⟨0x3000#16, 8#4⟩, 0x3001#16, 0#16) := by decide

/-- 2.6 row `D000` at 3005. -/
theorem test_res : afterStep (fun t => (t.run, t.fault, t.pc))
    (stateAt 0x3005#16 [(0x3005#16, 0xD000#16)]) =
      some (.faulted, some ⟨0x3005#16, 13#4⟩, 0x3006#16) := by decide

/-- 2.7 E2: the interrupt is seen before the fetch. -/
theorem test_interrupt_before_fetch : afterStep (fun t => (t.run, t.pc))
    { State.reset with irqPending := true } = some (.interrupted, 0x3000#16) := by decide

/-- 2.7 E6: a terminal state takes no step, whatever is pending. -/
theorem test_halted_ignores_interrupt : afterStep State.run
    { State.reset with run := .halted, irqPending := true } = some .halted := by decide

/-- 2.7 E9: a fetch at FE00 polls and reads 8000, an RTI. -/
theorem test_fetch_at_kbsr : afterStep (fun t => (t.run, t.fault, t.cell 0xFE02#16, t.input))
    { stateAt 0xFE00#16 [] with input := [0x6B#8] } =
      some (.faulted, some ⟨0xFE00#16, 8#4⟩, 0x6B#16, []) := by decide

/-- 2.7 E11: words past the top of memory are not loaded. -/
theorem test_load_at_the_top : (boot Config.default [⟨0xFFFE#16, [1#16, 2#16, 3#16]⟩]).mem =
    [(0x1FFFC, 1#8), (0x1FFFE, 2#8)] := by decide

/-- The placed word runs in the very next step, where GETC would be held as well (log 12). -/
theorem test_withFetchWord :
    afterStep (fun t => (t.reg .r0, t.pc)) (State.reset.withFetchWord 16 0x1025) =
      some (5#16, 0x3001#16) ∧
    afterStep (fun t => (t.reg .r0, t.pc)) (State.reset.withFetchWord 16 0xF020) =
      some (0x41#16, 0x3001#16) := by decide

/-! ## Witnesses: for every statement with hypotheses, states and operands that meet them, clause by
clause, at the boundary values of each clause -/

theorem witness_StepKeepsInvariant :
    (word3000 0xD000#16).Inv ∧ ∃ t, step (word3000 0xD000#16) = .next t := by
  constructor
  · unfold State.Inv; decide
  · exact ⟨_, rfl⟩

theorem witness_ReachableStatesMeetInvariant :
    Reachable (HostAction.raiseInterrupt.apply (boot Config.default [⟨0x3000#16, [0xF025#16]⟩])) :=
  .afterHost _ _ (.afterBoot _ _)

theorem witness_CanonicalMemoryIsDeterminedByCells :
    Memory.wf [(0x6001, 0x12#8)] = true ∧
      (Memory.writeCell [(0x6001, 0x12#8), (0x6002, 5#8)] 0x3001#16 0#16).wf = true ∧
      ∀ a : Word, Memory.readCell [(0x6001, 0x12#8)] a =
        (Memory.writeCell [(0x6001, 0x12#8), (0x6002, 5#8)] 0x3001#16 0#16).readCell a :=
  ⟨by decide, by decide, fun _ => rfl⟩

theorem witness_EncodedInstructionDecodesToItself :
    (Instr.trapUnhandled 0x1F#8).wellFormed = true ∧
      (Instr.trapUnhandled 0xFF#8).wellFormed = true ∧
      (Instr.addImm .r7 .r0 0x10#5).wellFormed = true := by decide

theorem witness_EveryWordDecodesToItsOneTableRow :
    Instr.trapHalt.row ∈ opcodeTable ∧ Instr.trapHalt.row.selects 0xF025#16 = true ∧
      Instr.trapHalt.row.fallback = false := by decide

/-- S3 of 95_test_vectors.md: the most negative value of each of the four widths. -/
theorem witness_SignExtensionKeepsTheSignedValue :
    sext 0x10#5 = 0xFFF0#16 ∧ sext 0x20#6 = 0xFFE0#16 ∧ sext 0x100#9 = 0xFF00#16 ∧
      sext 0x400#11 = 0xFC00#16 ∧ sext 0x0F#5 = 0x000F#16 ∧ sext 0x7FF#11 = 0xFFFF#16 := by decide

/-- The three cases of a result at 0000, 8000 and 7FFF; and an instruction from reset. -/
theorem witness_SetccGivesTheSignFlag :
    State.reset.reg .r0 = 0x0000#16 ∧
      ((State.reset.writeReg .r0 0x8000#16).reg .r0 ≠ 0x0000#16 ∧
        ((State.reset.writeReg .r0 0x8000#16).reg .r0).getLsbD 15 = true) ∧
      ((State.reset.writeReg .r0 0x7FFF#16).reg .r0 ≠ 0x0000#16 ∧
        ((State.reset.writeReg .r0 0x7FFF#16).reg .r0).getLsbD 15 = false) ∧
      condOneHot State.reset.cond = true ∧ (∃ t, exec (.lea .r0 0#9) State.reset = .next t) ∧
      ∃ t, step State.reset = .next t :=
  ⟨by decide, by decide, by decide, by decide, ⟨_, rfl⟩, _, rfl⟩

/-- A form that sets COND, one that does not, and a held GETC. -/
theorem witness_CondIsWrittenAndReadOnlyByTheListedForms :
    (∃ t, exec (.not .r0 .r0) State.reset = .next t ∧ flagReg (.not .r0 .r0) = some .r0 ∧
      readsCond (.not .r0 .r0) = false ∧ t.cond = flN) ∧
    (∃ t, exec (.jmp .r0) State.reset = .next t ∧ flagReg (.jmp .r0) = none) ∧
    (∃ t, exec .trapGetc State.reset = .next t ∧ State.reset.wouldBlock = true) :=
  ⟨⟨_, rfl, rfl, rfl, by decide⟩, ⟨_, rfl, rfl⟩, ⟨_, rfl, rfl⟩⟩

/-- A word of every opcode the result statements name, with each value of its mode bit. -/
theorem witness_opcode_words :
    (0x1FC7#16 : Word).extractLsb' 12 4 = 0b0001#4 ∧ (0x1FC7#16 : Word).getLsbD 5 = false ∧
    (0x103F#16 : Word).extractLsb' 12 4 = 0b0001#4 ∧ (0x103F#16 : Word).getLsbD 5 = true ∧
    (0x5FC7#16 : Word).extractLsb' 12 4 = 0b0101#4 ∧
    (0x9E3F#16 : Word).extractLsb' 12 4 = 0b1001#4 ∧
    (0x0FFF#16 : Word).extractLsb' 12 4 = 0b0000#4 ∧
    (0xC1C0#16 : Word).extractLsb' 12 4 = 0b1100#4 ∧
    (0x4C00#16 : Word).extractLsb' 12 4 = 0b0100#4 ∧ (0x4C00#16 : Word).getLsbD 11 = true ∧
    (0x41C0#16 : Word).extractLsb' 12 4 = 0b0100#4 ∧ (0x41C0#16 : Word).getLsbD 11 = false := by
  decide

theorem witness_opcode_words_of_data_movement_and_trap :
    (0x2FFF#16 : Word).extractLsb' 12 4 = 0b0010#4 ∧
    (0xA100#16 : Word).extractLsb' 12 4 = 0b1010#4 ∧
    (0x6060#16 : Word).extractLsb' 12 4 = 0b0110#4 ∧
    (0xEE00#16 : Word).extractLsb' 12 4 = 0b1110#4 ∧
    (0x3FFF#16 : Word).extractLsb' 12 4 = 0b0011#4 ∧
    (0xB001#16 : Word).extractLsb' 12 4 = 0b1011#4 ∧
    (0x705F#16 : Word).extractLsb' 12 4 = 0b0111#4 ∧
    (0xF01F#16 : Word).extractLsb' 12 4 = 0b1111#4 ∧
    (0xF126#16 : Word).extractLsb' 12 4 = 0b1111#4 := by decide

/-- The pairings of BR with each flag. -/
theorem witness_BrBranchesExactlyWhenAMaskedFlagIsSet :
    condOneHot flN = true ∧ condOneHot flZ = true ∧ condOneHot flP = true ∧
      brMask true false false &&& flN ≠ 0#3 ∧ brMask true false false &&& flP = 0#3 := by decide

theorem witness_JsrrLinksR7ThenReadsTheBase : Reg.r7 = .r7 ∧ Reg.r6 ≠ .r7 := by decide

/-- LD with and without KBSR among its reads. -/
theorem witness_LdLoadsThePcRelativeCell :
    kbsrAddr ∉ [(word3000 0#16).pc + sext 0xFF#9] ∧
      kbsrAddr ∈ [({ State.reset with pc := 0xFE01#16 } : State).pc + sext 0x1FF#9] := by decide

/-- LDI: the pointer cell, or only the data cell, is KBSR. -/
theorem witness_LdiLoadsThroughThePointerCell :
    kbsrAddr ∉ [State.reset.pc + sext 0#9, (State.reset.memRead (State.reset.pc + sext 0#9)).1] ∧
      ((stateAt 0x3000#16 [(0x3000#16, 0xFE00#16)]).memRead 0x3000#16).1 = kbsrAddr := by decide

theorem witness_LdrLoadsTheBasePlusOffsetCell :
    kbsrAddr ∉ [(State.reset.writeReg .r1 0xFE01#16).reg .r1 + sext 0#6] ∧
      kbsrAddr ∈ [(State.reset.writeReg .r1 0xFE01#16).reg .r1 + sext 0x3F#6] := by decide

theorem witness_StiStoresThroughThePointerCell :
    State.reset.pc + sext 0x100#9 ≠ kbsrAddr ∧
      ({ State.reset with pc := 0xFE01#16 } : State).pc + sext 0x1FF#9 = kbsrAddr := by decide

/-- A TRAP that reads a character that is there, and one that reads none. -/
theorem witness_EveryTrapSavesTheReturnAddressInR7 :
    (isTrap .trapIn = true ∧ callsReadChar .trapIn = true ∧
      ({ State.reset with input := [0#8] } : State).wouldBlock = false ∧
      ∃ t, exec .trapIn { State.reset with input := [0#8] } = .next t) ∧
    (isTrap .trapHalt = true ∧ callsReadChar .trapHalt = false ∧
      ∃ t, exec .trapHalt State.reset = .next t) :=
  ⟨⟨rfl, rfl, rfl, _, rfl⟩, rfl, rfl, _, rfl⟩

/-- The four ways a read can go: a key, the end of input with a value, no key yet, blocked for ever. -/
theorem witness_GetcReadsOneCharacterIntoR0 :
    ({ State.reset with input := [0xFF#8, 1#8] } : State).input = 0xFF#8 :: [1#8] ∧
    (let s : State := { State.reset with
      inputEnded := true, config := { Config.default with eofBehaviour := .value 0xFF#8 } }
     s.input = [] ∧ s.inputEnded = true ∧ s.config.eofBehaviour = .value 0xFF#8) ∧
    (State.reset.input = [] ∧ State.reset.inputEnded = false) ∧
    (let s : State := { State.reset with inputEnded := true }
     s.input = [] ∧ s.inputEnded = true ∧ s.config.eofBehaviour = .block) := by decide

/-- IN's hypotheses are GETC's. -/
theorem witness_InPromptsReadsAndEchoes :
    ({ State.reset with input := [0#8] } : State).input = 0#8 :: [] ∧
    (let s : State := { State.reset with
      inputEnded := true, config := { Config.default with eofBehaviour := .value 0#8 } }
     s.input = [] ∧ s.inputEnded = true ∧ s.config.eofBehaviour = .value 0#8) ∧
    (State.reset.input = [] ∧ State.reset.inputEnded = false) := by decide

/-- "Hi" (S6), and the empty string. -/
theorem witness_PutsWritesAnOrdinaryString :
    StringAt ((stateAt 0x3000#16 [(0x3005#16, 0x48#16), (0x3006#16, 0x69#16)]).writeReg .r0
      0x3005#16) 0x3005#16 [0x48#16, 0x69#16] ∧ StringAt State.reset (State.reset.reg .r0) [] := by
  unfold StringAt StringAt StringAt; decide

/-- A walk the relation gives an end: the empty string. -/
theorem witness_PutsEndsAndRunsTheSpecLoop :
    ∃ t, PutsLoop (State.reset.reg .r0) (State.reset.writeReg .r7 State.reset.pc) t :=
  ⟨_, .zeroCell _ _ (by decide)⟩

theorem witness_PutspEndsAndRunsTheSpecLoop :
    ∃ t, PutspLoop (State.reset.reg .r0) (State.reset.writeReg .r7 State.reset.pc) t :=
  ⟨_, .zeroCell _ _ (by decide)⟩

/-- S7: "Hi" packed; and a zero high byte under either value of the parameter. -/
theorem witness_PutspWritesAPackedString :
    StringAt ((stateAt 0x3000#16 [(0x3004#16, 0x6948#16)]).writeReg .r0 0x3004#16) 0x3004#16
      [0x6948#16] ∧ packedBytes false [0x41#16, 0x42#16] = [0x41#8, 0x42#8] ∧
      packedBytes true [0x41#16, 0x42#16] = [0x41#8] := by
  unfold StringAt StringAt; decide

/-- Both illegal opcodes, at the lowest and the highest address. -/
theorem witness_IllegalOpcodeEntersFaultedWithTheRecord :
    (let s := stateAt 0#16 [(0#16, 0x8000#16)]
     s.run = .running ∧ s.irqPending = false ∧ s.pc ≠ kbsrAddr ∧
      (s.cell s.pc).extractLsb' 12 4 = 0b1000#4) ∧
    (let s := stateAt 0xFFFF#16 [(0xFFFF#16, 0xDFFF#16)]
     s.run = .running ∧ s.irqPending = false ∧ s.pc ≠ kbsrAddr ∧
      (s.cell s.pc).extractLsb' 12 4 = 0b1101#4) := by decide

theorem witness_BusReadPollsAtKbsr :
    (0xFDFF#16 : Word) ≠ 0xFE00#16 ∧ (0xFE02#16 : Word) ≠ 0xFE00#16 ∧ State.reset.input = [] ∧
      ({ State.reset with input := [1#8, 2#8] } : State).input = 1#8 :: [2#8] := by decide

theorem witness_BusWriteStoresOneCell :
    State.reset.mem.wf = true ∧ (0xFFFF#16 : Word) ≠ 0xFE00#16 ∧
      (0xFE00#16 : Word) = 0xFE00#16 ∧ State.reset.input = [] := by decide

theorem witness_KeyboardProtocolYieldsTheKeyOnce :
    ({ State.reset with input := [0x6B#8] } : State).input = [0x6B#8] := by decide

/-- A running state that is not held, away from KBSR and at it; a GETC that finds its character. -/
theorem witness_StepRunsTheDecodedInstruction :
    (let s := stateAt 0xFE00#16 []
     s.run = .running ∧ s.irqPending = false ∧ s.heldForInput = false) ∧
    (let s := { stateAt 0xFFFF#16 [(0xFFFF#16, 0xF020#16)] with input := [0x61#8] }
     Instr.trapGetc.wellFormed = true ∧ s.pc ≠ kbsrAddr ∧ s.cell s.pc = encode .trapGetc ∧
      s.run = .running ∧ s.irqPending = false ∧
      (callsReadChar .trapGetc = true → s.wouldBlock = false)) ∧
    (let s := word3000 0xF025#16
     Instr.trapHalt.wellFormed = true ∧ s.pc ≠ kbsrAddr ∧ s.cell s.pc = encode .trapHalt ∧
      s.run = .running ∧ s.irqPending = false ∧
      (callsReadChar .trapHalt = true → s.wouldBlock = false)) := by decide

theorem witness_TerminalThenInterruptThenHold :
    ({ State.reset with run := .interrupted } : State).run ≠ .running ∧
    (let s := { word3000 0xF020#16 with irqPending := true }
     s.run = .running ∧ s.irqPending = true) ∧
    (let s := word3000 0xFF23#16
     s.run = .running ∧ s.irqPending = false ∧ s.heldForInput = true) := by decide

/-- Held at GETC and at IN with bits 11:8 set; not held at FE00, nor at OUT. -/
theorem witness_HeldExactlyAtABlockedReadTrap :
    (word3000 0xFF20#16).heldForInput = true ∧ (word3000 0xF023#16).heldForInput = true ∧
      (stateAt 0xFE00#16 [(0xFE00#16, 0xF020#16)]).heldForInput = false ∧
      (word3000 0xF021#16).heldForInput = false := by decide

theorem witness_CharacterOrInterruptLiftsTheHold :
    (word3000 0xF020#16).run = .running ∧ (word3000 0xF020#16).irqPending = false ∧
      (word3000 0xF020#16).heldForInput = true ∧ (word3000 0xF020#16).inputEnded = false := by
  decide

/-- Each transition of RUN, and a terminal state. -/
theorem witness_RunStateChangesOnlyAsListed :
    afterStep State.run { word3000 0xF025#16 with irqPending := true } = some .interrupted ∧
      afterStep State.run (word3000 0xF025#16) = some .halted ∧
      afterStep State.run (word3000 0x8000#16) = some .faulted ∧
      afterStep State.run (word3000 0xF023#16) = some .running ∧
      afterStep State.run { word3000 0xF025#16 with run := .faulted } = some .faulted := by decide

theorem witness_StepOnlyAppendsToLogsAndConsumesInput :
    ∃ t, step { word3000 0xF0FF#16 with output := [1#8] } = .next t := ⟨_, rfl⟩

/-- RTI raises; from a FAULTED state an ADD leaves FAULTED. -/
theorem witness_NoInstructionOrStepStops :
    (∃ t, exec .rti State.reset = .next t ∧ t.run = .faulted) ∧
      ∃ t, exec (.addImm .r0 .r0 1#5) { State.reset with run := .faulted } = .next t ∧
        t.run = .faulted := ⟨⟨_, rfl, rfl⟩, _, rfl, rfl⟩

/-- A register neither read nor written; one written only, by ADD and by a GETC with its character. -/
theorem witness_RegistersAreWrittenAndReadOnlyAsListed :
    (Reg.r3 ∉ readsRegs (.str .r1 .r2 0#6) ∧ Reg.r3 ∉ writesRegs (.str .r1 .r2 0#6) ∧
      ∃ t, exec (.str .r1 .r2 0#6) State.reset = .next t) ∧
    (Reg.r2 ∉ readsRegs (.addReg .r2 .r0 .r1) ∧ Reg.r2 ∈ writesRegs (.addReg .r2 .r0 .r1) ∧
      callsReadChar (.addReg .r2 .r0 .r1) = false ∧
      ∃ t, exec (.addReg .r2 .r0 .r1) State.reset = .next t) ∧
    (Reg.r0 ∉ readsRegs .trapGetc ∧ Reg.r0 ∈ writesRegs .trapGetc ∧
      ({ State.reset with input := [7#8] } : State).wouldBlock = false ∧
      ∃ t, exec .trapGetc { State.reset with input := [7#8] } = .next t) :=
  ⟨⟨by decide, by decide, _, rfl⟩, ⟨by decide, by decide, rfl, _, rfl⟩,
    by decide, by decide, rfl, _, rfl⟩

theorem witness_PcAfterEachInstruction :
    (∃ t, exec (.br true true true 0x1FF#9) State.reset = .next t) ∧
      ({ State.reset with input := [7#8] } : State).wouldBlock = false ∧
      ∃ t, exec .trapGetc { State.reset with input := [7#8] } = .next t :=
  ⟨⟨_, rfl⟩, rfl, _, rfl⟩

/-- A store, a load, and a form that touches no memory. -/
theorem witness_CellsChangeOnlyByStoresAndKeyboardPolls :
    (∃ t, exec (.sti .r0 0#9) State.reset = .next t ∧
      storesTo (.sti .r0 0#9) State.reset = some 0#16) ∧
    (∃ t, exec (.st .r0 0#9) State.reset = .next t ∧ readsMemory (.st .r0 0#9) = false) ∧
    (∃ t, exec .trapOut State.reset = .next t ∧ readsMemory .trapOut = false ∧
      storesTo .trapOut State.reset = none) :=
  ⟨⟨_, rfl, by decide⟩, ⟨_, rfl, rfl⟩, ⟨_, rfl, rfl, rfl⟩⟩

theorem witness_FormsWithoutDataAccessIgnoreMemory :
    readsMemory (.lea .r0 0#9) = false ∧ storesTo (.lea .r0 0#9) State.reset = none ∧
      ∃ t, exec (.lea .r0 0#9) State.reset = .next t := ⟨rfl, rfl, _, rfl⟩

/-- Two memories that agree on the cells a load reads and on no other. -/
theorem witness_LoadsDependOnlyOnTheCellsTheyRead :
    let s := stateAt 0x3000#16 [(0x3000#16, 0x4000#16), (0x4000#16, 7#16), (0x5000#16, 1#16)]
    let m : Memory := (stateAt 0x3000#16 [(0x3000#16, 0x4000#16), (0x4000#16, 7#16)]).mem
    (s.pc + sext 0#9 ≠ kbsrAddr ∧ m.readCell (s.pc + sext 0#9) = s.cell (s.pc + sext 0#9)) ∧
      (s.reg .r1 + sext 0#6 ≠ kbsrAddr ∧
        m.readCell (s.reg .r1 + sext 0#6) = s.cell (s.reg .r1 + sext 0#6)) ∧
      (s.cell (s.pc + sext 0#9) ≠ kbsrAddr ∧
        m.readCell (s.cell (s.pc + sext 0#9)) = s.cell (s.cell (s.pc + sext 0#9))) ∧
      m ≠ s.mem := by decide

theorem witness_LoadsDependOnlyOnTheCellsTheyRead_runs :
    (∃ t, exec (.ld .r0 0#9) State.reset = .next t) ∧
      (∃ t, exec (.ldr .r0 .r1 0#6) State.reset = .next t) ∧
      ∃ t, exec (.ldi .r0 0#9) State.reset = .next t := ⟨⟨_, rfl⟩, ⟨_, rfl⟩, _, rfl⟩

theorem witness_NoStepReadsTheLogs : ∃ t, step (word3000 0xF021#16) = .next t := ⟨_, rfl⟩

/-- Each store form away from KBSR, at the next PC and elsewhere; STR with its two registers apart. -/
theorem witness_StoreIsSeenByTheNextFetch :
    State.reset.pc + sext 0#9 ≠ kbsrAddr ∧ State.reset.pc + sext 0#9 = State.reset.pc ∧
      (State.reset.memRead (State.reset.pc + sext 0x1FF#9)).1 ≠ kbsrAddr ∧
      (State.reset.with01 5#16 0xFE01#16).reg .r1 + sext 0#6 ≠ kbsrAddr ∧
      (State.reset.with01 5#16 0xFE01#16).reg .r0 ≠
        (State.reset.with01 5#16 0xFE01#16).reg .r1 := by decide

/-- The last word that fits; the first address below the image and the first past it. -/
theorem witness_ImageLoadFillsFromTheOrigin :
    (1 < [1#16, 2#16, 3#16].length ∧ (0xFFFE#16 : Word).toNat + 1 < 65536) ∧
      (0xFFFD#16 : Word).toNat < (0xFFFE#16 : Word).toNat ∧
      (0x3000#16 : Word).toNat + [1#16].length ≤ (0x3001#16 : Word).toNat := by decide

theorem witness_HostActsTouchOnlyTheBoundary :
    State.reset.inputEnded = false ∧
      ({ State.reset with inputEnded := true } : State).inputEnded = true ∧
      ({ State.reset with irqPending := true } : State).irqPending = true := by decide

end Sys2Proof.Machine
end

/-! SUPPORT. The family 10_state.md: what a register write before an operation does to it, what `exec`
does to the registers and to COND, and the proofs of the family's statements. -/

namespace Sys2Proof.Machine

/-! ## A register write moves outward past every operation that touches no register -/

section writeRegOutward

variable (s : State) (i : Reg) (v : Word)

@[simp] theorem State.setPc_writeReg (p : Word) :
    (s.writeReg i v).setPc p = (s.setPc p).writeReg i v := rfl
@[simp] theorem State.writeCell_writeReg (a w : Word) :
    (s.writeReg i v).writeCell a w = (s.writeCell a w).writeReg i v := rfl
@[simp] theorem State.writeChar_writeReg (b : Byte) :
    (s.writeReg i v).writeChar b = (s.writeChar b).writeReg i v := rfl
@[simp] theorem State.writeChars_writeReg (bs : List Byte) :
    (s.writeReg i v).writeChars bs = (s.writeChars bs).writeReg i v := rfl
@[simp] theorem State.halt_writeReg : (s.writeReg i v).halt = s.halt.writeReg i v := rfl
@[simp] theorem State.raiseIllegalOpcode_writeReg (op : BitVec 4) :
    (s.writeReg i v).raiseIllegalOpcode op = (s.raiseIllegalOpcode op).writeReg i v := rfl
@[simp] theorem State.reportUnhandledTrap_writeReg (n : BitVec 8) :
    (s.writeReg i v).reportUnhandledTrap n = (s.reportUnhandledTrap n).writeReg i v := rfl
@[simp] theorem State.walkFuel_writeReg : (s.writeReg i v).walkFuel = s.walkFuel := rfl

/-- A bus read neither reads nor writes a register. -/
@[simp] theorem State.memRead_writeReg (a : Word) :
    (s.writeReg i v).memRead a = ((s.memRead a).1, (s.memRead a).2.writeReg i v) := by
  rcases s.memRead_cases a with ⟨ha, e⟩ | ⟨rfl, hi, e⟩ | ⟨c, rest, rfl, hi, e⟩
  · rw [e, State.memRead_ne _ ha]; rfl
  · rw [e, State.memRead_kbsr_nil (s.writeReg i v) hi]; rfl
  · rw [e, State.memRead_kbsr_cons (s.writeReg i v) hi]; rfl

/-- `setcc` of another register than the one written. -/
theorem State.setcc_writeReg_other {j : Reg} (h : j ≠ i) :
    (s.writeReg i v).setcc j = (s.setcc j).writeReg i v := by
  rw [State.setcc, State.reg_writeReg_other _ _ h]
  rfl

/-- A string walk neither reads nor writes a register. -/
theorem State.walkString_writeReg (emit : Word → List Byte × Bool) (fuel : Nat) (a : Word) :
    State.walkString emit fuel a (s.writeReg i v) =
      (State.walkString emit fuel a s).map (·.writeReg i v) := by
  induction fuel generalizing a s with
  | zero => rfl
  | succ n ih =>
    unfold State.walkString
    simp only [State.memRead_writeReg, State.writeChars_writeReg, ih]
    split
    · rfl
    · split <;> rfl

end writeRegOutward

/-! ## GETC, IN and the string routines -/

section trap

variable {s : State} {i : Instr}

/-- A read that does not block answers a character and takes it from the queue at most. -/
theorem State.readChar_of_not_wouldBlock (h : s.wouldBlock = false) :
    ∃ c input', s.readChar = some (c, { s with input := input' }) := by
  rcases s.readChar_cases with ⟨c, rest, -, e⟩ | ⟨c, -, -, -, e⟩ | ⟨-, -, e⟩
  · exact ⟨c, rest, e⟩
  · exact ⟨c, s.input, e⟩
  · simp [State.wouldBlock, e] at h

theorem eq_trapGetc_or_trapIn_of_callsReadChar (h : callsReadChar i = true) :
    i = .trapGetc ∨ i = .trapIn := by
  cases i <;> simp [callsReadChar] at h ⊢

/-- Everything GETC or IN can do. A read that would block only takes PC back (log 4). With a
character to read, R7 and R0 are written and COND set from R0 in a state `u` with the registers of
`s`. Neither reads a register. -/
theorem exec_callsReadChar_cases {t : State} (h : exec i s = .next t)
    (hc : callsReadChar i = true) :
    (s.wouldBlock = true ∧ t = s.setPc s.instrAddr ∧
      ∀ r v, exec i (s.writeReg r v) = .next (t.writeReg r v)) ∨
    ∃ (u : State) (c : Byte), s.wouldBlock = false ∧ u.regs = s.regs ∧
      t = ((u.writeReg .r7 s.pc).writeReg .r0 (zext8 c)).setcc .r0 ∧
      ∀ r v, exec i (s.writeReg r v) =
        .next ((((u.writeReg r v).writeReg .r7 s.pc).writeReg .r0 (zext8 c)).setcc .r0) := by
  cases hb : s.wouldBlock with
  | true =>
    have hn : s.readChar = none := by simpa [State.wouldBlock] using hb
    have hn' (r v) : (s.writeReg r v).readChar = none := by simp [hn]
    rcases eq_trapGetc_or_trapIn_of_callsReadChar hc with rfl | rfl
    · cases (exec_trapGetc_of_none s hn).symm.trans h
      exact .inl ⟨rfl, rfl, fun r v => exec_trapGetc_of_none _ (hn' r v)⟩
    · cases (exec_trapIn_of_none s hn).symm.trans h
      exact .inl ⟨rfl, rfl, fun r v => exec_trapIn_of_none _ (hn' r v)⟩
  | false =>
    obtain ⟨c, input', e⟩ := State.readChar_of_not_wouldBlock hb
    have e' (r v) : (s.writeReg r v).readChar =
        some (c, { s with input := input' }.writeReg r v) := by simp [e]
    rcases eq_trapGetc_or_trapIn_of_callsReadChar hc with rfl | rfl
    · cases (exec_trapGetc_of_char s e).symm.trans h
      exact .inr ⟨State.writeChars { s with input := input' } s.config.getcPrompt, c, rfl, rfl,
        rfl, fun r v => exec_trapGetc_of_char _ (e' r v)⟩
    · cases (exec_trapIn_of_char s e).symm.trans h
      exact .inr ⟨(State.writeChars { s with input := input' } s.config.inPrompt).writeChar c, c,
        rfl, rfl, rfl, fun r v => exec_trapIn_of_char _ (e' r v)⟩

/-- Everything a string routine can do to the registers and COND: its walk leaves both, R7 is
written, and R0 alone is read. -/
theorem runStringRoutine_cases {emit : Word → List Byte × Bool} {t : State}
    (h : s.runStringRoutine emit = .next t) :
    ∃ u : State, u.regs = s.regs ∧ u.cond = s.cond ∧ t = u.writeReg .r7 s.pc ∧
      ∀ r v, r ≠ .r0 →
        (s.writeReg r v).runStringRoutine emit = .next ((u.writeReg r v).writeReg .r7 s.pc) := by
  obtain ⟨u, hu⟩ := State.walkString_walkFuel emit (s.reg .r0) s
  have hframe := (State.walkString_frame emit hu).1
  refine ⟨u, by rw [hframe], by rw [hframe], ?_, fun r v h0 => ?_⟩
  · simpa [State.runStringRoutine, State.walkString_writeReg, hu] using h.symm
  · simp [State.runStringRoutine, State.walkString_writeReg, h0.symm, hu]

end trap

/-! ## The registers each form writes and reads (10_state.md R21) -/

@[simp] theorem State.reset_reg (r : Reg) : State.reset.reg r = 0#16 := by cases r <;> rfl

theorem State.reg_eq_of_regs_eq {s u : State} (h : u.regs = s.regs) (r : Reg) :
    u.reg r = s.reg r := congrArg (RegFile.read · r) h

section registers

variable {i : Instr} {s t : State} {r : Reg}

/-- No form changes a register it does not write. -/
theorem exec_sameRegsExcept (h : exec i s = .next t) : SameRegsExcept (writesRegs i) s t := by
  intro r hw
  cases i with
  | addReg dr _ _ | addImm dr _ _ | andReg dr _ _ | andImm dr _ _ | not dr _ | ld dr _ | ldi dr _
  | ldr dr _ _ | lea dr _ =>
    cases h
    have hdr : r ≠ dr := by simpa [writesRegs] using hw
    simp [hdr]
  | jsr _ | jsrr _ | trapOut | trapHalt | trapUnhandled _ =>
    cases h
    have h7 : r ≠ .r7 := by simpa [writesRegs] using hw
    simp [h7]
  | br _ _ _ _ => cases h; split <;> rfl
  | jmp _ | st _ _ | sti _ _ | str _ _ _ | rti | res => cases h; simp
  | trapPuts | trapPutsp =>
    have h7 : r ≠ .r7 := by simpa [writesRegs] using hw
    obtain ⟨u, hregs, -, rfl, -⟩ := runStringRoutine_cases h
    simp [h7, State.reg_eq_of_regs_eq hregs]
  | trapGetc | trapIn =>
    obtain ⟨h7, h0⟩ : r ≠ .r7 ∧ r ≠ .r0 := by simpa [writesRegs] using hw
    obtain ⟨-, rfl, -⟩ | ⟨u, c, -, hregs, rfl, -⟩ := exec_callsReadChar_cases h rfl
    · rfl
    · simp [h7, h0, State.reg_eq_of_regs_eq hregs]

/-- The registers a form reads are the same after a write to one it does not read. -/
theorem reg_writeReg_of_mem_readsRegs (hr : r ∉ readsRegs i) (v : Word) :
    ∀ q ∈ readsRegs i, (s.writeReg r v).reg q = s.reg q :=
  fun _ hq => s.reg_writeReg_other v fun e => hr (e ▸ hq)

/-- A register a form writes and does not read can hold anything before. -/
theorem exec_writeReg_of_written (v : Word) (hr : r ∉ readsRegs i) (hw : r ∈ writesRegs i)
    (hx : callsReadChar i = true → s.wouldBlock = false) (h : exec i s = .next t) :
    exec i (s.writeReg r v) = .next t := by
  have hread := reg_writeReg_of_mem_readsRegs (s := s) hr v
  cases i with
  | addReg dr _ _ | addImm dr _ _ | andReg dr _ _ | andImm dr _ _ | not dr _ | ld dr _ | ldi dr _
  | ldr dr _ _ | lea dr _ =>
    obtain rfl : r = dr := by simpa [writesRegs] using hw
    simp only [readsRegs, List.forall_mem_cons] at hread
    rw [← h]
    simp [exec_addReg, exec_addImm, exec_andReg, exec_andImm, exec_not, exec_ld, exec_ldi, exec_ldr,
      exec_lea, hread]
  | jsr _ | jsrr _ | trapOut | trapHalt | trapUnhandled _ =>
    obtain rfl : r = .r7 := by simpa [writesRegs] using hw
    simp only [readsRegs, List.forall_mem_cons] at hread
    rw [← h]
    simp [exec_jsr, exec_jsrr, exec_trapOut, exec_trapHalt, exec_trapUnhandled, hread]
  | br _ _ _ _ | jmp _ | st _ _ | sti _ _ | str _ _ _ | rti | res => cases hw
  | trapPuts | trapPutsp =>
    obtain rfl : r = .r7 := by simpa [writesRegs] using hw
    obtain ⟨u, -, -, rfl, hrun⟩ := runStringRoutine_cases h
    rw [← u.writeReg_writeReg_same .r7 v]
    exact hrun .r7 v (by decide)
  | trapGetc | trapIn =>
    obtain ⟨hb, -⟩ | ⟨u, c, -, -, rfl, hrun⟩ := exec_callsReadChar_cases h rfl
    · simp [hx rfl] at hb
    rw [hrun]
    obtain rfl | rfl : r = .r7 ∨ r = .r0 := by simpa [writesRegs] using hw
    · simp
    · simp [u.writeReg_comm (i := .r0) (j := .r7) v s.pc (by decide)]

/-- A register a form neither reads nor writes keeps its value, and nothing else depends on it. -/
theorem exec_writeReg_of_untouched (v : Word) (hr : r ∉ readsRegs i) (hw : r ∉ writesRegs i)
    (h : exec i s = .next t) : exec i (s.writeReg r v) = .next (t.writeReg r v) := by
  have hread := reg_writeReg_of_mem_readsRegs (s := s) hr v
  cases i with
  | addReg dr _ _ | addImm dr _ _ | andReg dr _ _ | andImm dr _ _ | not dr _ | ld dr _ | ldi dr _
  | ldr dr _ _ | lea dr _ =>
    have hdr : r ≠ dr := by simpa [writesRegs] using hw
    simp only [exec_addReg, exec_addImm, exec_andReg, exec_andImm, exec_not, exec_ld, exec_ldi,
      exec_ldr, exec_lea] at h ⊢
    cases h
    simp only [readsRegs, List.forall_mem_cons] at hread
    simp [hread, State.writeReg_comm _ _ _ hdr, State.setcc_writeReg_other _ _ _ hdr.symm]
  | jsr _ | jsrr _ | trapOut | trapHalt | trapUnhandled _ =>
    have h7 : r ≠ .r7 := by simpa [writesRegs] using hw
    simp only [exec_jsr, exec_jsrr, exec_trapOut, exec_trapHalt, exec_trapUnhandled] at h ⊢
    cases h
    simp only [readsRegs, List.forall_mem_cons] at hread
    simp [hread, State.writeReg_comm _ _ _ h7]
  | br _ _ _ _ =>
    cases h
    rw [exec_br, State.writeReg_cond]
    split <;> rfl
  | jmp _ | st _ _ | sti _ _ | str _ _ _ | rti | res =>
    simp only [exec_jmp, exec_st, exec_sti, exec_str, exec_rti, exec_res] at h ⊢
    cases h
    simp only [readsRegs, List.forall_mem_cons] at hread
    simp [hread]
  | trapPuts | trapPutsp =>
    have h7 : r ≠ .r7 := by simpa [writesRegs] using hw
    have h0 : r ≠ .r0 := by simpa [readsRegs] using hr
    obtain ⟨u, -, -, rfl, hrun⟩ := runStringRoutine_cases h
    rw [← u.writeReg_comm _ _ h7]
    exact hrun r v h0
  | trapGetc | trapIn =>
    obtain ⟨h7, h0⟩ : r ≠ .r7 ∧ r ≠ .r0 := by simpa [writesRegs] using hw
    obtain ⟨-, -, hrun⟩ | ⟨u, c, -, -, rfl, hrun⟩ := exec_callsReadChar_cases h rfl
    · exact hrun r v
    · simp [hrun, State.writeReg_comm _ _ _ h7, State.writeReg_comm _ _ _ h0,
        State.setcc_writeReg_other _ _ _ h0.symm]

end registers

/-! ## COND (10_state.md R26) -/

/-- The flag of a value is the flag of its sign as a two's-complement number. -/
theorem signFlag_flagsOf (v : Word) : SignFlag v (flagsOf v) := by
  have hzero : v.toInt = 0 ↔ v = 0#16 := by simp [← BitVec.toInt_inj]
  have hneg : v.toInt < 0 ↔ v.getLsbD 15 = true := by
    rw [← BitVec.msb_eq_getLsbD_last v, BitVec.msb_eq_toInt, decide_eq_true_iff]
  rcases flagsOf_cases v with ⟨h, e⟩ | ⟨h, hs, e⟩ | ⟨h, hs, e⟩
  · exact ⟨fun _ => e, by simp [h], by simp [h]⟩
  · have := hneg.2 hs
    exact ⟨by omega, fun _ => e, by omega⟩
  · have := mt hneg.1 (Bool.eq_false_iff.1 hs)
    exact ⟨fun h0 => absurd (hzero.1 h0) h, by omega, fun _ => e⟩

/-- An instruction leaves COND as it is or sets it to the flag of its flag register's value; a GETC or
IN that is held leaves it (log 4). -/
theorem exec_cond {i : Instr} {s t : State} (h : exec i s = .next t) :
    (flagReg i = none ∧ t.cond = s.cond) ∨
    (∃ r, flagReg i = some r ∧ t.cond = flagsOf (t.reg r)) ∨
    (callsReadChar i = true ∧ s.wouldBlock = true ∧ t.cond = s.cond) := by
  cases i with
  | addReg dr _ _ | addImm dr _ _ | andReg dr _ _ | andImm dr _ _ | not dr _ | ld dr _ | ldi dr _
  | ldr dr _ _ | lea dr _ => cases h; exact .inr (.inl ⟨dr, rfl, rfl⟩)
  | br _ _ _ _ => cases h; exact .inl ⟨rfl, by split <;> rfl⟩
  | jsr _ | jsrr _ | trapOut | trapHalt | trapUnhandled _ | jmp _ | st _ _ | sti _ _ | str _ _ _
  | rti | res => cases h; exact .inl ⟨rfl, by simp⟩
  | trapPuts | trapPutsp =>
    obtain ⟨u, -, hcond, rfl, -⟩ := runStringRoutine_cases h
    exact .inl ⟨rfl, hcond⟩
  | trapGetc | trapIn =>
    obtain ⟨hb, rfl, -⟩ | ⟨u, c, -, -, rfl, -⟩ := exec_callsReadChar_cases h rfl
    · exact .inr (.inr ⟨rfl, hb, rfl⟩)
    · exact .inr (.inl ⟨.r0, rfl, rfl⟩)

/-- No instruction leaves a one-hot COND otherwise. -/
theorem exec_condOneHot {i : Instr} {s t : State} (hs : condOneHot s.cond = true)
    (h : exec i s = .next t) : condOneHot t.cond = true := by
  rcases exec_cond h with ⟨-, e⟩ | ⟨r, -, e⟩ | ⟨-, -, e⟩
  · rwa [e]
  · rw [e]; exact condOneHot_flagsOf _
  · rwa [e]

/-- No step leaves a one-hot COND otherwise. -/
theorem step_condOneHot {s t : State} (hs : condOneHot s.cond = true) (h : step s = .next t) :
    condOneHot t.cond = true := by
  rcases step_cases h with ⟨-, rfl⟩ | ⟨-, -, rfl⟩ | ⟨-, -, -, rfl⟩ | ⟨-, -, -, h⟩
  · exact hs
  · exact hs
  · exact hs
  · exact exec_condOneHot (by simpa using hs) h

/-! ## The statements -/

/-- Settles O11: COND is set by `flagsOf` alone, which is one-hot and the sign's flag. -/
theorem setccGivesTheSignFlag : Obligations.SetccGivesTheSignFlag := by
  refine ⟨fun s i => ⟨fun h => if_pos h, fun h hs => ?_, fun h hs => ?_, signFlag_flagsOf _,
    condOneHot_flagsOf _, rfl⟩, by decide, fun _ _ _ => exec_condOneHot,
    fun _ _ => step_condOneHot⟩
  · rw [State.setcc_cond, flagsOf, if_neg h, if_pos hs]
  · rw [State.setcc_cond, flagsOf, if_neg h, if_neg (Bool.eq_false_iff.1 hs)]

/-- Settles O48, by the forms: a write to a register that a form neither reads nor writes commutes
with `exec`, and one to a register it writes and does not read is absorbed. -/
theorem registersAreWrittenAndReadOnlyAsListed :
    Obligations.RegistersAreWrittenAndReadOnlyAsListed :=
  ⟨fun _ _ _ => exec_sameRegsExcept, fun _ _ _ _ v => exec_writeReg_of_untouched v,
    fun _ _ _ _ v => exec_writeReg_of_written v, State.reset_reg⟩

/-- Settles O1: each field of `State.reset` and, for cells, that empty memory reads as zero. -/
theorem resetLeavesSpecValues : Obligations.ResetLeavesSpecValues :=
  ⟨State.reset_reg, rfl, rfl, Memory.readCell_nil, rfl, rfl, rfl, rfl, rfl⟩

end Sys2Proof.Machine

/-! SUPPORT. The family 40_operate.md: how the three opcodes decode, what an instruction that computes a
register value does to the state, and the proofs of the family's statements. -/

namespace Sys2Proof

/-! ## The words of opcodes 0001, 0101 and 1001 (30_encoding.md R84, R85) -/

section decode

variable {w : Word}

theorem decodeWord_of_add (h : opcodeField w = 0b0001#4) : decodeWord w =
    if w.getLsbD 5 = false then .addReg (regHigh w) (regMid w) (regLow w)
    else .addImm (regHigh w) (regMid w) (imm5Field w) := by
  unfold decodeWord
  rw [h]
  cases w.getLsbD 5 <;> rfl

theorem decodeWord_of_and (h : opcodeField w = 0b0101#4) : decodeWord w =
    if w.getLsbD 5 = false then .andReg (regHigh w) (regMid w) (regLow w)
    else .andImm (regHigh w) (regMid w) (imm5Field w) := by
  unfold decodeWord
  rw [h]
  cases w.getLsbD 5 <;> rfl

theorem decodeWord_of_not (h : opcodeField w = 0b1001#4) :
    decodeWord w = .not (regHigh w) (regMid w) := by
  unfold decodeWord
  rw [h]
  rfl

end decode

end Sys2Proof

namespace Sys2Proof.Machine

/-! ## A value written to DR, with COND set from it (10_state.md R27) -/

/-- How every flag-updating instruction ends has the effect of a computed register value. The value is
an argument of the write, so it stands for the sources before it, DR among them or not (R110). -/
theorem registerResult_writeReg_setcc (s : State) (dr : Reg) (v : Word) :
    RegisterResult s ((s.writeReg dr v).setcc dr) dr v := by
  have hreg : ((s.writeReg dr v).setcc dr).reg dr = v := s.reg_writeReg_same dr v
  have hcond : SignFlag v ((s.writeReg dr v).setcc dr).cond := by
    rw [State.setcc_cond, State.reg_writeReg_same]
    exact signFlag_flagsOf v
  have hregs : SameRegsExcept [dr] s ((s.writeReg dr v).setcc dr) := fun r hr => by
    rw [State.setcc_reg, State.reg_writeReg_other _ _ (List.ne_of_not_mem_cons hr)]
  have hrest : SameOutsideCpu s ((s.writeReg dr v).setcc dr) :=
    ⟨rfl, fun _ _ => rfl, ⟨rfl, rfl⟩, ⟨rfl, rfl⟩, rfl, rfl, rfl, rfl⟩
  exact ⟨hreg, hcond, hregs, rfl, hrest⟩

/-- The word sum is the sum modulo 2^16 (40_operate.md R113). -/
theorem add_eq_ofNat_mod (a b : Word) :
    a + b = BitVec.ofNat 16 ((a.toNat + b.toNat) % 65536) :=
  BitVec.eq_of_toNat_eq (by simp)

/-! ## The statements -/

/-- Settles O13: the decoder's row for opcode 0001, and for each form the effect of the computed
value, the word sum. -/
theorem addPutsTheWrappedSumInDr : Obligations.AddPutsTheWrappedSumInDr := by
  refine ⟨fun w h => decodeWord_of_add h, fun dr sr1 sr2 s => ?_, fun dr sr1 imm5 s => ?_⟩
  · rw [← add_eq_ofNat_mod]
    exact ⟨_, exec_addReg .., registerResult_writeReg_setcc ..⟩
  · rw [← add_eq_ofNat_mod]
    exact ⟨_, exec_addImm .., registerResult_writeReg_setcc ..⟩

/-- Settles O14: the decoder's row for opcode 0101, and for each form the effect of the computed
value. -/
theorem andPutsTheBitwiseAndInDr : Obligations.AndPutsTheBitwiseAndInDr :=
  ⟨fun _ h => decodeWord_of_and h,
    fun _ _ _ _ => ⟨_, exec_andReg .., registerResult_writeReg_setcc ..⟩,
    fun _ _ _ _ => ⟨_, exec_andImm .., registerResult_writeReg_setcc ..⟩⟩

/-- Settles O15: the decoder's row for opcode 1001, the effect of the computed value, and the
library's two other forms of the complement. -/
theorem notPutsTheComplementInDr : Obligations.NotPutsTheComplementInDr := by
  refine ⟨fun w h => decodeWord_of_not h, fun dr sr s => ?_⟩
  have hdr := s.reg_writeReg_same dr (~~~(s.reg sr))
  exact ⟨_, exec_not .., registerResult_writeReg_setcc ..,
    hdr.trans (BitVec.allOnes_sub_eq_not _).symm, hdr.trans BitVec.xor_allOnes.symm⟩

end Sys2Proof.Machine

/-! SUPPORT. The family 41_control.md: how the opcodes of BR, JMP and JSR decode, what a write to PC and
the write of a link register do to the state, and the proofs of the family's statements. -/

namespace Sys2Proof

/-! ## The words of opcodes 0000, 1100 and 0100 (30_encoding.md R86, R87, R88) -/

section decode

variable {w : Word}

theorem decodeWord_of_br (h : opcodeField w = 0b0000#4) : decodeWord w =
    .br (w.getLsbD 11) (w.getLsbD 10) (w.getLsbD 9) (offset9Field w) := by
  unfold decodeWord
  rw [h]
  rfl

theorem decodeWord_of_jmp (h : opcodeField w = 0b1100#4) : decodeWord w = .jmp (regMid w) := by
  unfold decodeWord
  rw [h]
  rfl

/-- Opcode 0100 is JSR or JSRR, by its mode bit. -/
theorem decodeWord_of_jsr_or_jsrr (h : opcodeField w = 0b0100#4) : decodeWord w =
    if w.getLsbD 11 then .jsr (offset11Field w) else .jsrr (regMid w) := by
  unfold decodeWord
  rw [h]
  rfl

end decode

end Sys2Proof

namespace Sys2Proof.Machine

/-! ## The frame of a control instruction -/

section controlEffect

variable (s : State) (target : Word)

/-- A write to PC alone has the effect of a control instruction that links no register. -/
theorem controlEffect_setPc : ControlEffect s (s.setPc target) target [] :=
  ⟨rfl, rfl, fun _ _ => rfl, rfl, fun _ _ => rfl, ⟨rfl, rfl⟩, ⟨rfl, rfl⟩, rfl, rfl, rfl, rfl⟩

variable {s target}

/-- A register write after a control effect adds that register to those changed, nothing else. -/
theorem ControlEffect.writeReg {t : State} {ds : List Reg} (h : ControlEffect s t target ds)
    (r : Reg) (v : Word) : ControlEffect s (t.writeReg r v) target (r :: ds) := by
  obtain ⟨hpc, hcond, hregs, houtside⟩ := h
  refine ⟨hpc, hcond, fun q hq => ?_, houtside⟩
  obtain ⟨hqr, hqds⟩ := List.ne_and_not_mem_of_not_mem_cons hq
  rw [State.reg_writeReg_other _ _ hqr, hregs q hqds]

end controlEffect

/-! ## The test of BR (41_control.md R120) -/

theorem brTaken_iff (mask cond : BitVec 3) : brTaken mask cond = true ↔ mask &&& cond ≠ 0#3 :=
  bne_iff_ne

/-- BR writes PC in either case: a branch not taken writes the PC it has. -/
theorem exec_br_eq_setPc (n z p : Bool) (off : BitVec 9) (s : State) : exec (.br n z p off) s =
    .next (s.setPc (if brMask n z p &&& s.cond ≠ 0#3 then s.pc + sext off else s.pc)) := by
  simp only [exec_br, brTaken_iff]
  split <;> rfl

/-- With a one-hot COND the mask test is the three pairings of a mask bit with its flag. -/
theorem brTaken_iff_of_condOneHot {c : BitVec 3} (n z p : Bool) (h : condOneHot c = true) :
    brTaken (brMask n z p) c = true ↔
      (n = true ∧ c = flN) ∨ (z = true ∧ c = flZ) ∨ (p = true ∧ c = flP) := by
  obtain ⟨hN, hZ, hP⟩ := brTaken_oneHot n z p
  rcases (condOneHot_iff c).1 h with rfl | rfl | rfl
  · simp [hN, show flN ≠ flZ by decide, show flN ≠ flP by decide]
  · simp [hZ, show flZ ≠ flN by decide, show flZ ≠ flP by decide]
  · simp [hP, show flP ≠ flN by decide, show flP ≠ flZ by decide]

/-! ## The statements -/

/-- Settles O16: the decoder's row for opcode 0000, BR as one write to PC, and the mask test read
flag by flag. -/
theorem brBranchesExactlyWhenAMaskedFlagIsSet :
    Obligations.BrBranchesExactlyWhenAMaskedFlagIsSet :=
  ⟨fun _ h => decodeWord_of_br h,
    fun _ _ _ _ _ => ⟨_, exec_br_eq_setPc .., controlEffect_setPc ..⟩,
    fun n z p _ h => (brTaken_iff ..).symm.trans (brTaken_iff_of_condOneHot n z p h)⟩

/-- Settles O17: the decoder's row for opcode 1100, and the frame of a write to PC. -/
theorem jmpGoesToTheBaseRegister : Obligations.JmpGoesToTheBaseRegister :=
  ⟨fun _ h => decodeWord_of_jmp h, fun _ _ => ⟨_, exec_jmp .., controlEffect_setPc ..⟩⟩

/-- Settles O18: the decoder's row for opcode 0100 with the mode bit set, and the frame of a write to
PC followed by that of the write of R7. -/
theorem jsrLinksR7AndJumpsRelative : Obligations.JsrLinksR7AndJumpsRelative := by
  refine ⟨fun w h hmode => (decodeWord_of_jsr_or_jsrr h).trans (if_pos hmode), fun off s => ?_⟩
  have heffect := (controlEffect_setPc s (s.pc + sext off)).writeReg .r7 s.pc
  rw [exec_jsr, State.setPc_writeReg]
  exact ⟨_, rfl, State.reg_writeReg_same .., heffect⟩

end Sys2Proof.Machine

/-! SUPPORT. The family 42_load_store.md: how the seven opcodes decode, what bus reads and a store leave
unchanged, and the proofs of the family's statements. -/

namespace Sys2Proof

/-! ## The words of the seven opcodes (30_encoding.md R89, R90) -/

section decode

variable {w : Word}

theorem decodeWord_of_ld (h : opcodeField w = 0b0010#4) :
    decodeWord w = .ld (regHigh w) (offset9Field w) := by simp [decodeWord, h]

theorem decodeWord_of_ldi (h : opcodeField w = 0b1010#4) :
    decodeWord w = .ldi (regHigh w) (offset9Field w) := by simp [decodeWord, h]

theorem decodeWord_of_ldr (h : opcodeField w = 0b0110#4) :
    decodeWord w = .ldr (regHigh w) (regMid w) (offset6Field w) := by simp [decodeWord, h]

theorem decodeWord_of_lea (h : opcodeField w = 0b1110#4) :
    decodeWord w = .lea (regHigh w) (offset9Field w) := by simp [decodeWord, h]

theorem decodeWord_of_st (h : opcodeField w = 0b0011#4) :
    decodeWord w = .st (regHigh w) (offset9Field w) := by simp [decodeWord, h]

theorem decodeWord_of_sti (h : opcodeField w = 0b1011#4) :
    decodeWord w = .sti (regHigh w) (offset9Field w) := by simp [decodeWord, h]

theorem decodeWord_of_str (h : opcodeField w = 0b0111#4) :
    decodeWord w = .str (regHigh w) (regMid w) (offset6Field w) := by simp [decodeWord, h]

end decode

end Sys2Proof

namespace Sys2Proof.Machine

/-! ## The cells after a bus read and after a store -/

/-- A bus read away from KBSR leaves the state as it is (20_memory.md R53). -/
theorem State.memRead_state_of_ne (s : State) {a : Word} (h : a ≠ kbsrAddr) :
    (s.memRead a).2 = s := by
  rw [s.memRead_ne h]

/-- A bus read changes no cell but KBSR and KBDR, whatever its address (20_memory.md R53). -/
theorem sameCellsExcept_memRead (s : State) (a : Word) :
    SameCellsExcept [kbsrAddr, kbdrAddr] s (s.memRead a).2 := by
  intro c hc
  obtain ⟨hkbsr, hkbdr⟩ : c ≠ kbsrAddr ∧ c ≠ kbdrAddr := by simpa using hc
  rcases s.memRead_cases a with ⟨-, e⟩ | ⟨-, -, e⟩ | ⟨k, rest, -, -, e⟩ <;> rw [e]
  · exact s.cell_writeCell_other _ hkbsr
  · rw [State.cell_writeCell_other _ _ hkbdr, State.cell_writeCell_other _ _ hkbsr]
    rfl

theorem sameCellsExcept_refl (s : State) : SameCellsExcept [] s s := fun _ _ => rfl

/-- A store adds its address to the cells changed (20_memory.md R54). -/
theorem SameCellsExcept.writeCell {s t : State} {as : List Word} (h : SameCellsExcept as s t)
    (a v : Word) : SameCellsExcept (a :: as) s (t.writeCell a v) := by
  intro c hc
  obtain ⟨hca, hcas⟩ := List.ne_and_not_mem_of_not_mem_cons hc
  rw [State.cell_writeCell_other _ _ hca, h c hcas]

/-! ## What bus reads and stores leave besides memory and the queue -/

theorem storeFrame_refl (s : State) : StoreFrame s s :=
  ⟨fun _ _ => rfl, rfl, rfl, rfl, ⟨rfl, rfl⟩, rfl, rfl, rfl, rfl⟩

section frame

variable {s t : State} (h : StoreFrame s t) (a : Word)

include h

theorem StoreFrame.writeCell (v : Word) : StoreFrame s (t.writeCell a v) := h

/-- A bus read leaves what a store leaves: it changes memory and the queue at most. -/
theorem StoreFrame.memRead : StoreFrame s (t.memRead a).2 := by
  rw [t.memRead_frame]
  exact h

end frame

/-! ## What the bus reads of a load leave (42_load_store.md R130 to R132) -/

theorem sameOutsideReads_nil (s : State) : SameOutsideReads [] s s :=
  ⟨fun _ => ⟨sameCellsExcept_refl s, rfl⟩, fun _ _ => rfl, rfl, ⟨rfl, rfl⟩, rfl, rfl, rfl, rfl⟩

/-- One more bus read adds its address to those read: only at KBSR does it change cells. -/
theorem SameOutsideReads.memRead {s t : State} {reads : List Word}
    (h : SameOutsideReads reads s t) (a : Word) :
    SameOutsideReads (reads ++ [a]) s (t.memRead a).2 := by
  obtain ⟨hne, hcells, hout, hrest⟩ := h
  refine ⟨fun hk => ?_, fun c hc => ?_, (t.memRead_output a).trans hout, ?_⟩
  · obtain ⟨hreads, ha⟩ : kbsrAddr ∉ reads ∧ kbsrAddr ≠ a := by simpa using hk
    rw [t.memRead_state_of_ne ha.symm]
    exact hne hreads
  · rw [sameCellsExcept_memRead t a c hc, hcells c hc]
  · rw [t.memRead_frame]
    exact hrest

/-- A load's last act, the write of the value `v` it read in the state `u` its reads left, has the
effect of a load: registers and PC of `u` are still those of `s`. -/
theorem loadEffect_writeReg_setcc {s u : State} {reads : List Word} (hframe : StoreFrame s u)
    (hreads : SameOutsideReads reads s u) (dr : Reg) (v : Word) :
    LoadEffect s ((u.writeReg dr v).setcc dr) dr (v, u) reads := by
  obtain ⟨hregs, hpc, -⟩ := hframe
  obtain ⟨hdr, hflag, hothers, -⟩ := registerResult_writeReg_setcc u dr v
  exact ⟨hdr, hflag, fun r hr => (hothers r hr).trans (hregs r List.not_mem_nil), hpc, rfl, rfl,
    hreads⟩

/-- A load by one bus read, at `a`, has the effect of a load: LD and LDR. -/
theorem loadEffect_memRead (s : State) (dr : Reg) (a : Word) :
    LoadEffect s (((s.memRead a).2.writeReg dr (s.memRead a).1).setcc dr) dr (s.memRead a) [a] :=
  loadEffect_writeReg_setcc ((storeFrame_refl s).memRead a) ((sameOutsideReads_nil s).memRead a) ..

/-! ## A store from the state it is computed in: ST and STR (42_load_store.md R134, R136) -/

theorem storeEffect_writeCell (s : State) (a v : Word) :
    (s.writeCell a v).cell a = v ∧ SameCellsExcept [a] s (s.writeCell a v) ∧
      (s.writeCell a v).input = s.input ∧ StoreFrame s (s.writeCell a v) :=
  ⟨s.cell_writeCell_same a v, (sameCellsExcept_refl s).writeCell a v, rfl,
    (storeFrame_refl s).writeCell a v⟩

/-! ## The statements -/

/-- Settles O20: the decoder's row for opcode 0010, and the effect of a load by one bus read. -/
theorem ldLoadsThePcRelativeCell : Obligations.LdLoadsThePcRelativeCell :=
  ⟨fun _ h => decodeWord_of_ld h, fun _ _ _ => ⟨_, exec_ld .., loadEffect_memRead ..⟩⟩

/-- Settles O21: the decoder's row for opcode 1010, and the effect of a load after two bus reads, the
second in the state the first leaves. -/
theorem ldiLoadsThroughThePointerCell : Obligations.LdiLoadsThroughThePointerCell := by
  refine ⟨fun w h => decodeWord_of_ldi h, fun dr off s => ⟨_, exec_ldi .., ?_⟩⟩
  have hframe := ((storeFrame_refl s).memRead (s.pc + sext off)).memRead
    (s.memRead (s.pc + sext off)).1
  have hreads := ((sameOutsideReads_nil s).memRead (s.pc + sext off)).memRead
    (s.memRead (s.pc + sext off)).1
  exact loadEffect_writeReg_setcc hframe hreads ..

/-- Settles O22: the decoder's row for opcode 0110, and the effect of a load by one bus read at an
address that the state before the write of DR gives. -/
theorem ldrLoadsTheBasePlusOffsetCell : Obligations.LdrLoadsTheBasePlusOffsetCell :=
  ⟨fun _ h => decodeWord_of_ldr h, fun _ _ _ _ => ⟨_, exec_ldr .., loadEffect_memRead ..⟩⟩

/-- Settles O23: the decoder's row for opcode 1110, and the effect of the computed value, the
address. -/
theorem leaPutsTheAddressInDr : Obligations.LeaPutsTheAddressInDr :=
  ⟨fun _ h => decodeWord_of_lea h,
    fun _ _ _ => ⟨_, exec_lea .., registerResult_writeReg_setcc ..⟩⟩

/-- Settles O24: the decoder's row for opcode 0011, and the effect of a store at the computed
address. -/
theorem stStoresInThePcRelativeCell : Obligations.StStoresInThePcRelativeCell :=
  ⟨fun _ h => decodeWord_of_st h, fun _ _ _ => ⟨_, exec_st .., storeEffect_writeCell ..⟩⟩

/-- Settles O25: the decoder's row for opcode 1011, and the effect of a store in the state the
pointer's bus read leaves, which away from KBSR is the state before it. -/
theorem stiStoresThroughThePointerCell : Obligations.StiStoresThroughThePointerCell := by
  refine ⟨fun w h => decodeWord_of_sti h, fun sr off s => ⟨_, exec_sti .., ?_⟩⟩
  obtain ⟨hcell, hcells, hinput, -⟩ := storeEffect_writeCell (s.memRead (s.pc + sext off)).2
    (s.memRead (s.pc + sext off)).1 (s.reg sr)
  have hpolled := (sameCellsExcept_memRead s (s.pc + sext off)).writeCell
    (s.memRead (s.pc + sext off)).1 (s.reg sr)
  have hframe := ((storeFrame_refl s).memRead (s.pc + sext off)).writeCell
    (s.memRead (s.pc + sext off)).1 (s.reg sr)
  refine ⟨hcell, hcells, hinput, fun hne => ?_, hpolled, hframe⟩
  rw [s.memRead_state_of_ne hne] at hcells hinput ⊢
  exact ⟨hcells, hinput⟩

/-- Settles O26: the decoder's row for opcode 0111, and the effect of a store at the computed
address, SR being the base or not. -/
theorem strStoresInTheBasePlusOffsetCell : Obligations.StrStoresInTheBasePlusOffsetCell :=
  ⟨fun _ h => decodeWord_of_str h, fun _ _ _ _ => ⟨_, exec_str .., storeEffect_writeCell ..⟩⟩

end Sys2Proof.Machine

/-! SUPPORT. The family 43_trap.md: where a TRAP that is not held leaves R7, PC and COND, and the proof
of the family's statement. -/

namespace Sys2Proof.Machine

section trapReturn

variable {i : Instr} {s t : State}

/-! ## The TRAP forms in the spec's tables (43_trap.md R150, R151) -/

/-- A TRAP that reads no character writes R7 alone and sets no flag. -/
theorem writesRegs_flagReg_of_isTrap (h : isTrap i = true) (hc : callsReadChar i = false) :
    writesRegs i = [.r7] ∧ flagReg i = none := by
  cases i with
  | trapOut | trapPuts | trapPutsp | trapHalt | trapUnhandled _ => exact ⟨rfl, rfl⟩
  | trapGetc | trapIn => cases hc
  | addReg | addImm | andReg | andImm | not | br | jmp | jsr | jsrr | ld | ldi | ldr | lea | st | sti
  | str | rti | res => cases h

theorem flagReg_of_callsReadChar (h : callsReadChar i = true) : flagReg i = some .r0 := by
  rcases eq_trapGetc_or_trapIn_of_callsReadChar h with rfl | rfl <;> rfl

/-! ## R7 and PC after the routine (43_trap.md R150, R159) -/

/-- A string routine links R7, and its walk moves neither R7 nor PC. -/
theorem runStringRoutine_reg_r7_pc {emit : Word → List Byte × Bool}
    (h : s.runStringRoutine emit = .next t) : t.reg .r7 = s.pc ∧ t.pc = s.pc := by
  obtain ⟨u, hwalk, hrun⟩ := runStringRoutine_next s emit
  cases hrun.symm.trans h
  rw [(State.walkString_frame emit hwalk).1]
  exact ⟨s.reg_writeReg_same .r7 s.pc, rfl⟩

/-- Every TRAP but a held one leaves R7 and PC at the incremented PC. For GETC and IN the write of R0
comes after that of R7 and is to another register. -/
theorem exec_trap_reg_r7_pc (htrap : isTrap i = true)
    (hchar : callsReadChar i = true → s.wouldBlock = false) (h : exec i s = .next t) :
    t.reg .r7 = s.pc ∧ t.pc = s.pc := by
  cases i with
  | trapOut | trapHalt | trapUnhandled _ =>
    cases h
    simp
  | trapPuts | trapPutsp => exact runStringRoutine_reg_r7_pc h
  | trapGetc =>
    obtain ⟨c, input', e⟩ := State.readChar_of_not_wouldBlock (hchar rfl)
    cases (exec_trapGetc_of_char s e).symm.trans h
    simp
  | trapIn =>
    obtain ⟨c, input', e⟩ := State.readChar_of_not_wouldBlock (hchar rfl)
    cases (exec_trapIn_of_char s e).symm.trans h
    simp
  | addReg | addImm | andReg | andImm | not | br | jmp | jsr | jsrr | ld | ldi | ldr | lea | st | sti
  | str | rti | res => cases htrap

/-! ## COND after the routine (43_trap.md R150, R152, R155) -/

/-- A TRAP that reads no character leaves R0 and COND. -/
theorem exec_trap_reg_r0_cond_of_not_callsReadChar (htrap : isTrap i = true)
    (hchar : callsReadChar i = false) (h : exec i s = .next t) :
    t.reg .r0 = s.reg .r0 ∧ t.cond = s.cond := by
  obtain ⟨hregs, hflag⟩ := writesRegs_flagReg_of_isTrap htrap hchar
  refine ⟨exec_sameRegsExcept h .r0 (by simp [hregs]), ?_⟩
  rcases exec_cond h with ⟨-, e⟩ | ⟨r, hr, -⟩ | ⟨-, -, e⟩
  · exact e
  · simp [hflag] at hr
  · exact e

/-- GETC and IN with a character to read leave the sign flag of R0 in COND. -/
theorem exec_signFlag_of_callsReadChar (hchar : callsReadChar i = true)
    (hb : s.wouldBlock = false) (h : exec i s = .next t) : SignFlag (t.reg .r0) t.cond := by
  rcases exec_cond h with ⟨hn, -⟩ | ⟨r, hr, e⟩ | ⟨-, hb', -⟩
  · simp [flagReg_of_callsReadChar hchar] at hn
  · obtain rfl : .r0 = r := by simpa [flagReg_of_callsReadChar hchar] using hr
    exact e ▸ signFlag_flagsOf _
  · simp [hb] at hb'

end trapReturn

/-! ## The statement -/

/-- Settles O27: the decoder's row for opcode 1111 with the TrapTable, R7 and PC after every routine,
the registers each form may write, and COND by whether the routine reads a character. -/
theorem everyTrapSavesTheReturnAddressInR7 :
    Obligations.EveryTrapSavesTheReturnAddressInR7 := by
  refine ⟨fun w h => (decodeWord_of_trap h).trans (decodeTrap_eq _),
    fun i s t htrap hchar h => ⟨?_, fun hc => ?_, fun hc => ?_⟩⟩
  · obtain ⟨hr7, hpc⟩ := exec_trap_reg_r7_pc htrap hchar h
    exact ⟨hr7, fun r hr => exec_sameRegsExcept h r (List.not_mem_of_not_mem_cons hr), hpc⟩
  · exact exec_trap_reg_r0_cond_of_not_callsReadChar htrap hc h
  · exact exec_signFlag_of_callsReadChar hc (hchar hc) h

end Sys2Proof.Machine

/-! SUPPORT. The family 45_execution_cycle.md: the opcode a word decodes by, the instruction an
encoded word decodes to, what an instruction does to RUN, and the proofs of the family's statements. -/

namespace Sys2Proof

/-! ## The opcode of a decoded word (30_encoding.md R81) -/

section decode

variable {w : Word}

theorem decodeWord_of_rti (h : opcodeField w = 0b1000#4) : decodeWord w = .rti := by
  simp [decodeWord, h]

theorem decodeWord_of_res (h : opcodeField w = 0b1101#4) : decodeWord w = .res := by
  simp [decodeWord, h]

theorem opcodeField_row_decodeTrap (v : BitVec 8) :
    opcodeField (decodeTrap v).row.pattern = 0b1111#4 := by
  unfold decodeTrap
  split <;> simp [Instr.row, opcodeField, bitField]

/-- The table row of the instruction a word decodes to has the word's opcode. -/
theorem opcodeField_row_decodeWord (w : Word) :
    opcodeField (decodeWord w).row.pattern = opcodeField w := by
  unfold decodeWord
  split
  case h_16 =>
    have hop : opcodeField w = 0b1111#4 := by
      have hcases := opcode_cases (opcodeField w)
      simp_all
    rw [opcodeField_row_decodeTrap, hop]
  case h_2 h | h_5 h | h_6 h =>
    rw [h]
    split <;> simp [Instr.row, opcodeField, bitField]
  all_goals
    next h =>
    rw [h]
    simp [Instr.row, opcodeField, bitField]

theorem decodeWord_eq_rti_iff : decodeWord w = .rti ↔ opcodeField w = 0b1000#4 :=
  ⟨fun h => by rw [← opcodeField_row_decodeWord, h]; rfl, decodeWord_of_rti⟩

theorem decodeWord_eq_res_iff : decodeWord w = .res ↔ opcodeField w = 0b1101#4 :=
  ⟨fun h => by rw [← opcodeField_row_decodeWord, h]; rfl, decodeWord_of_res⟩

theorem decodeTrap_eq_trapHalt_iff {v : BitVec 8} : decodeTrap v = .trapHalt ↔ v = 0x25#8 := by
  unfold decodeTrap
  split <;> simp_all

theorem decodeWord_eq_trapHalt_iff :
    decodeWord w = .trapHalt ↔ opcodeField w = 0b1111#4 ∧ vectorField w = 0x25#8 := by
  have hop (h : decodeWord w = .trapHalt) : opcodeField w = 0b1111#4 := by
    rw [← opcodeField_row_decodeWord, h]; rfl
  refine ⟨fun h => ⟨hop h, ?_⟩, fun ⟨hop, hv⟩ => ?_⟩
  · rwa [decodeWord_of_trap (hop h), decodeTrap_eq_trapHalt_iff] at h
  · rwa [decodeWord_of_trap hop, decodeTrap_eq_trapHalt_iff]

end decode

/-! ## The fields of an encoded word (30_encoding.md R84 to R93) -/

section encode

/-- A bit of a word with one field placed in it. -/
theorem getElem_place {n : Nat} (lo : Nat) (f : BitVec n) {i : Nat} (hi : i < 16) :
    (place lo f)[i] = (!decide (i < lo) && f.getLsbD (i - lo)) := by
  simp [place]

theorem bitField_or (a b : Word) (hi lo : Nat) :
    bitField (a ||| b) hi lo = bitField a hi lo ||| bitField b hi lo :=
  BitVec.extractLsb'_or

theorem bitField_place_same {hi lo n : Nat} (f : BitVec n) (h : lo ≤ hi ∧ hi < 16) :
    bitField (place lo f) hi lo = f.setWidth (hi - lo + 1) := by
  apply BitVec.eq_of_getLsbD_eq
  intro i hlt
  have hsum : lo + i < 16 := by omega
  simp [bitField, place, hlt, hsum]

theorem bitField_place_disjoint {hi lo lo' n : Nat} (f : BitVec n)
    (h : lo' + n ≤ lo ∨ hi < lo' ∧ lo ≤ hi) : bitField (place lo' f) hi lo = 0#_ := by
  apply BitVec.eq_of_getLsbD_eq
  intro i hlt
  rcases h with hbelow | habove
  · have hbit : f.getLsbD (lo + i - lo') = false := BitVec.getLsbD_of_ge _ _ (by omega)
    simp [bitField, place, hbit]
  · have hbit : lo + i < lo' := by omega
    simp [bitField, place, hbit]

theorem decodeWord_encodeTrap (v : BitVec 8) : decodeWord (encodeTrap v) = decodeTrap v := by
  have hop : opcodeField (encodeTrap v) = 0b1111#4 := by
    simp [opcodeField, encodeTrap, bitField_or, bitField_place_same, bitField_place_disjoint]
  have hv : vectorField (encodeTrap v) = v := by
    simp [vectorField, encodeTrap, bitField_or, bitField_place_same, bitField_place_disjoint]
  rw [decodeWord_of_trap hop, hv]

/-- Decoding undoes encoding: a TRAP by its vector, any other form field by field. -/
theorem decodeWord_encode {i : Instr} (h : i.wellFormed = true) : decodeWord (encode i) = i := by
  cases i with
  | trapGetc | trapOut | trapPuts | trapIn | trapPutsp | trapHalt => exact decodeWord_encodeTrap _
  | trapUnhandled v =>
    have hv : isHandledVector v = false := by simpa [Instr.wellFormed] using h
    exact (decodeWord_encodeTrap v).trans (decodeTrap_unhandled hv)
  | addReg | addImm | andReg | andImm | not | br | jmp | jsr | jsrr | ld | ldi | ldr | lea | st
  | sti | str | rti | res =>
    simp [decodeWord, encode, opcodeField, regHigh, regMid, regLow, imm5Field, offset6Field,
      offset9Field, offset11Field, bitField_or, bitField_place_same, bitField_place_disjoint,
      getElem_place]

end encode

end Sys2Proof

namespace Sys2Proof.Machine

/-! ## The hold test and the decoder (45_execution_cycle.md R187) -/

theorem callsReadChar_decodeTrap (v : BitVec 8) :
    callsReadChar (decodeTrap v) = (v == 0x20#8 || v == 0x23#8) := by
  unfold decodeTrap
  split <;> simp_all [callsReadChar]

/-- The words the hold looks for are those that decode to GETC or IN. -/
theorem readsChar_eq_callsReadChar_decodeWord (w : Word) :
    readsChar w = callsReadChar (decodeWord w) := by
  by_cases hop : opcodeField w = 0b1111#4
  · rw [decodeWord_of_trap hop, callsReadChar_decodeTrap]
    simp [readsChar, hop]
  · have hcalls : callsReadChar (decodeWord w) ≠ true := fun hc => hop <| by
      rw [← opcodeField_row_decodeWord]
      rcases eq_trapGetc_or_trapIn_of_callsReadChar hc with e | e <;> rw [e] <;> rfl
    simp [readsChar, hop, hcalls]

/-- A core is not held at the word of an instruction that could run. -/
theorem State.heldForInput_of_encode {s : State} {i : Instr} (hi : i.wellFormed = true)
    (hcell : s.cell s.pc = encode i) (hchar : callsReadChar i = true → s.wouldBlock = false) :
    s.heldForInput = false := by
  rw [State.heldForInput, hcell, readsChar_eq_callsReadChar_decodeWord, decodeWord_encode hi]
  cases hc : callsReadChar i with
  | true => simp [hchar hc]
  | false => simp

/-! ## RUN after one instruction (45_execution_cycle.md R184) -/

section run

variable {i : Instr} {s t : State}

theorem State.readChar_run {r : Byte × State} (h : s.readChar = some r) : r.2.run = s.run := by
  rcases s.readChar_cases with ⟨c', rest, -, e⟩ | ⟨v, -, -, -, e⟩ | ⟨-, -, e⟩ <;>
    cases e.symm.trans h <;> rfl

theorem runStringRoutine_run {emit : Word → List Byte × Bool}
    (h : s.runStringRoutine emit = .next t) : t.run = s.run := by
  obtain ⟨u, hwalk, hrun⟩ := runStringRoutine_next s emit
  cases hrun.symm.trans h
  rw [(State.walkString_frame emit hwalk).1]
  rfl

/-- Everything an instruction can do to RUN. -/
theorem exec_run_cases (h : exec i s = .next t) :
    (i = .trapHalt ∧ t.run = .halted) ∨ ((i = .rti ∨ i = .res) ∧ t.run = .faulted) ∨
      (i ≠ .trapHalt ∧ i ≠ .rti ∧ i ≠ .res ∧ t.run = s.run) := by
  cases i with
  | trapHalt => cases h; exact .inl ⟨rfl, rfl⟩
  | rti => cases h; exact .inr (.inl ⟨.inl rfl, rfl⟩)
  | res => cases h; exact .inr (.inl ⟨.inr rfl, rfl⟩)
  | addReg | addImm | andReg | andImm | not | jmp | jsr | jsrr | ld | ldi | ldr | lea | st | sti
  | str | trapOut | trapUnhandled => cases h; simp
  | br => cases h; split <;> simp
  | trapPuts | trapPutsp => simp [runStringRoutine_run h]
  | trapGetc =>
    cases e : s.readChar with
    | none => cases (exec_trapGetc_of_none s e).symm.trans h; simp
    | some r =>
      cases (exec_trapGetc_of_char s e).symm.trans h
      simp [State.readChar_run e]
  | trapIn =>
    cases e : s.readChar with
    | none => cases (exec_trapIn_of_none s e).symm.trans h; simp
    | some r =>
      cases (exec_trapIn_of_char s e).symm.trans h
      simp [State.readChar_run e]

/-- The ends of an instruction that runs in RUNNING. -/
theorem exec_run_of_running (hs : s.run = .running) (h : exec i s = .next t) :
    t.run ≠ .interrupted ∧ (t.run = .halted ↔ i = .trapHalt) ∧
      (t.run = .faulted ↔ i = .rti ∨ i = .res) := by
  rcases exec_run_cases h with ⟨rfl, e⟩ | ⟨hi, e⟩ | ⟨hhalt, hrti, hres, e⟩
  · simp [e]
  · rcases hi with rfl | rfl <;> simp [e]
  · simp [e, hs, hhalt, hrti, hres]

end run

/-- The step of a state that is not stopped, interrupted or held. -/
theorem step_of_execute {s : State} (hr : s.run = .running) (hi : s.irqPending = false)
    (hh : s.heldForInput = false) : step s = exec (decodeWord s.fetch.1) s.fetch.2 := by
  simp [step, State.cycleAction, hr, hi, hh]

/-! ## The statements -/

/-- Settles O45: by the events of a step; RUN after an executed instruction is by its form, and the
form by the opcode and the vector of the word fetched. -/
theorem runStateChangesOnlyAsListed : Obligations.RunStateChangesOnlyAsListed := by
  intro s t h
  rcases step_cases h with ⟨hr, rfl⟩ | ⟨hr, hi, rfl⟩ | ⟨hr, hi, hh, rfl⟩ | ⟨hr, hi, hh, h⟩
  · exact ⟨fun _ => rfl, fun h => absurd h hr⟩
  · simp [hr, hi]
  · simp [hr, hi, hh]
  · obtain ⟨hinterrupted, hhalted, hfaulted⟩ := exec_run_of_running (by simpa using hr) h
    rw [decodeWord_eq_trapHalt_iff] at hhalted
    rw [decodeWord_eq_rti_iff, decodeWord_eq_res_iff] at hfaulted
    exact ⟨fun h => absurd hr h, fun _ => ⟨iff_of_false hinterrupted (Bool.eq_false_iff.1 hi),
      hhalted.trans (and_iff_right ⟨hi, hh⟩).symm, hfaulted.trans (and_iff_right ⟨hi, hh⟩).symm⟩⟩

/-- Settles O41: the execute branch of `step`; at an encoded instruction, not held, the fetch away
from KBSR reads the raw cell, which decodes to that instruction. -/
theorem stepRunsTheDecodedInstruction : Obligations.StepRunsTheDecodedInstruction := by
  refine ⟨fun s hr hi hh => ?_, fun s i hwf hpc hcell hr hi hchar => ?_⟩
  · rw [step_of_execute hr hi hh, State.fetch, add_eq_ofNat_mod]
    rfl
  · have hh := State.heldForInput_of_encode hwf hcell hchar
    rw [step_of_execute hr hi hh, s.fetch_ne hpc, hcell, decodeWord_encode hwf]
    rfl

end Sys2Proof.Machine

/-! SUPPORT. The whole-machine statements: what every instruction and every step leaves, and the
invariant. -/

namespace Sys2Proof

/-! ## Every word decodes to a well-formed instruction (30_encoding.md R81) -/

theorem decodeWord_wellFormed (w : Word) : (decodeWord w).wellFormed = true := by
  unfold decodeWord
  split
  case h_16 => exact decodeTrap_wellFormed _
  case h_2 | h_5 | h_6 => split <;> rfl
  all_goals rfl

/-- A word that decodes to an unhandled TRAP has none of the six vectors. -/
theorem isHandledVector_of_decodeWord {w : Word} {v : BitVec 8}
    (h : decodeWord w = .trapUnhandled v) : isHandledVector v = false := by
  simpa [h, Instr.wellFormed] using decodeWord_wellFormed w

end Sys2Proof

namespace Sys2Proof.Machine

/-! ## GETC and IN with a character to read (43_trap.md R152, R155) -/

/-- The state GETC or IN leaves once it has read `c`, the queue being `rest` and its output `out`.
-/
def State.readInto (s : State) (c : Byte) (rest out : List Byte) : State :=
  (((State.writeReg { s with input := rest } .r7 s.pc).writeChars out).writeReg .r0
    (zext8 c)).setcc .r0

section readRoutine

variable {s : State} {c : Byte} {rest : List Byte}

theorem State.readChar_of_cons (h : s.input = c :: rest) :
    s.readChar = some (c, { s with input := rest }) := by
  simp [State.readChar, h]

theorem State.readChar_of_ended (hinput : s.input = []) (hended : s.inputEnded = true)
    (heof : s.config.eofBehaviour = .value c) :
    s.readChar = some (c, { s with input := [] }) := by
  have hs : ({ s with input := [] } : State) = s := by rw [← hinput]
  rw [hs]
  simp [State.readChar, hinput, hended, heof]

theorem State.readChar_eq_none_iff : s.readChar = none ↔
    s.input = [] ∧ (s.inputEnded = false ∨ s.config.eofBehaviour = .block) := by
  rcases s.readChar_cases with ⟨c, rest, hi, e⟩ | ⟨v, -, he, hv, e⟩ | ⟨hi, hb, e⟩
  · simp [e, hi]
  · simp [e, he, hv]
  · simp [e, hi, hb]

/-- A read is decided by the queue, the end of the input and the parameters: two states that agree
on them both block, or both read the same character and keep the same queue. -/
theorem State.readChar_congr {s s' : State} (hinput : s'.input = s.input)
    (hended : s'.inputEnded = s.inputEnded) (hconfig : s'.config = s.config) :
    (s.readChar = none ∧ s'.readChar = none) ∨
    ∃ c rest, rest <:+ s.input ∧ s.readChar = some (c, { s with input := rest }) ∧
      s'.readChar = some (c, { s' with input := rest }) := by
  rcases s.readChar_cases with ⟨c, rest, hi, e⟩ | ⟨v, hi, he, hv, -⟩ | ⟨hi, hb, e⟩
  · exact .inr ⟨c, rest, by simp [hi], e, State.readChar_of_cons (hinput.trans hi)⟩
  · exact .inr ⟨v, [], List.nil_suffix, State.readChar_of_ended hi he hv,
      State.readChar_of_ended (hinput.trans hi) (hended.trans he) (by rw [hconfig, hv])⟩
  · exact .inl ⟨e, State.readChar_eq_none_iff.2 ⟨hinput.trans hi, by rwa [hended, hconfig]⟩⟩

theorem exec_trapGetc_of_readChar (h : s.readChar = some (c, { s with input := rest })) :
    exec .trapGetc s = .next (s.readInto c rest s.config.getcPrompt) :=
  exec_trapGetc_of_char s h

/-- The prompt and the echo are one output. -/
theorem exec_trapIn_of_readChar (h : s.readChar = some (c, { s with input := rest })) :
    exec .trapIn s = .next (s.readInto c rest (s.config.inPrompt ++ [c])) := by
  rw [exec_trapIn_of_char s h, State.readInto]
  simp only [State.writeChar, State.writeChars, List.append_assoc]

/-- GETC or IN that would block is held (log 4). -/
theorem exec_callsReadChar_of_none {i : Instr} (hc : callsReadChar i = true)
    (h : s.readChar = none) : exec i s = .next (s.setPc s.instrAddr) := by
  rcases eq_trapGetc_or_trapIn_of_callsReadChar hc with rfl | rfl
  · exact exec_trapGetc_of_none s h
  · exact exec_trapIn_of_none s h

/-- GETC or IN from two states with the same queue, end of input and parameters: both are held, or
both read the same character and write the same output. -/
theorem exec_callsReadChar_congr {i : Instr} (hc : callsReadChar i = true) {s s' : State}
    (hinput : s'.input = s.input) (hended : s'.inputEnded = s.inputEnded)
    (hconfig : s'.config = s.config) :
    (exec i s = .next (s.setPc s.instrAddr) ∧ exec i s' = .next (s'.setPc s'.instrAddr)) ∨
    ∃ c rest out, rest <:+ s.input ∧ exec i s = .next (s.readInto c rest out) ∧
      exec i s' = .next (s'.readInto c rest out) := by
  rcases State.readChar_congr hinput hended hconfig with ⟨e, e'⟩ | ⟨c, rest, hrest, e, e'⟩
  · exact .inl ⟨exec_callsReadChar_of_none hc e, exec_callsReadChar_of_none hc e'⟩
  · rcases eq_trapGetc_or_trapIn_of_callsReadChar hc with rfl | rfl
    · exact .inr ⟨c, rest, _, hrest, exec_trapGetc_of_readChar e,
        hconfig ▸ exec_trapGetc_of_readChar e'⟩
    · exact .inr ⟨c, rest, _, hrest, exec_trapIn_of_readChar e,
        hconfig ▸ exec_trapIn_of_readChar e'⟩

/-- Everything GETC or IN can do, with what it does from such another state. -/
theorem exec_callsReadChar_transfer {i : Instr} {t : State} (h : exec i s = .next t)
    (hc : callsReadChar i = true) {s' : State} (hinput : s'.input = s.input)
    (hended : s'.inputEnded = s.inputEnded) (hconfig : s'.config = s.config) :
    (t = s.setPc s.instrAddr ∧ exec i s' = .next (s'.setPc s'.instrAddr)) ∨
    ∃ c rest out, rest <:+ s.input ∧ t = s.readInto c rest out ∧
      exec i s' = .next (s'.readInto c rest out) := by
  rcases exec_callsReadChar_congr hc hinput hended hconfig with
    ⟨e, e'⟩ | ⟨c, rest, out, hrest, e, e'⟩ <;> cases e.symm.trans h
  · exact .inl ⟨rfl, e'⟩
  · exact .inr ⟨c, rest, out, hrest, rfl, e'⟩

/-- Everything GETC or IN can do. -/
theorem exec_callsReadChar_inv {i : Instr} {t : State} (h : exec i s = .next t)
    (hc : callsReadChar i = true) : t = s.setPc s.instrAddr ∨
    ∃ c rest out, rest <:+ s.input ∧ t = s.readInto c rest out := by
  rcases exec_callsReadChar_transfer h hc rfl rfl rfl with ⟨e, -⟩ | ⟨c, rest, out, hrest, e, -⟩
  · exact .inl e
  · exact .inr ⟨c, rest, out, hrest, e⟩

end readRoutine

/-! ## RUN, the fault record, the reports and what only the host writes -/

section sameRest

variable {i : Instr} {s t : State}

theorem sameRest_refl (s : State) : SameRest s s := ⟨⟨rfl, rfl⟩, rfl, rfl, rfl, rfl⟩

theorem SameRest.memRead (h : SameRest s t) (a : Word) : SameRest s (t.memRead a).2 := by
  rw [t.memRead_frame]
  exact h

theorem runStringRoutine_sameRest {emit : Word → List Byte × Bool}
    (h : s.runStringRoutine emit = .next t) : SameRest s t := by
  obtain ⟨u, hwalk, hrun⟩ := runStringRoutine_next s emit
  cases hrun.symm.trans h
  rw [(State.walkString_frame emit hwalk).1]
  exact sameRest_refl s

/-- An instruction leaves all of these but for HALT, an unhandled TRAP and the two illegal opcodes.
-/
theorem exec_sameRest_cases (h : exec i s = .next t) : SameRest s t ∨
    (i = .trapHalt ∧ t = ((s.writeReg .r7 s.pc).writeChars s.config.haltNotice).halt) ∨
    (∃ v, i = .trapUnhandled v ∧ t = (s.writeReg .r7 s.pc).reportUnhandledTrap v) ∨
    (i = .rti ∧ t = s.raiseIllegalOpcode 0b1000#4) ∨
    (i = .res ∧ t = s.raiseIllegalOpcode 0b1101#4) := by
  have hs := sameRest_refl s
  cases i with
  | trapHalt => cases h; exact .inr (.inl ⟨rfl, rfl⟩)
  | trapUnhandled v => cases h; exact .inr (.inr (.inl ⟨v, rfl, rfl⟩))
  | rti => cases h; exact .inr (.inr (.inr (.inl ⟨rfl, rfl⟩)))
  | res => cases h; exact .inr (.inr (.inr (.inr ⟨rfl, rfl⟩)))
  | addReg | addImm | andReg | andImm | not | lea | jmp | jsr | jsrr | st | str | trapOut =>
    cases h
    exact .inl hs
  | br =>
    cases (exec_br_eq_setPc ..).symm.trans h
    exact .inl hs
  | ld | ldr | sti => cases h; exact .inl (hs.memRead _)
  | ldi => cases h; exact .inl ((hs.memRead _).memRead _)
  | trapPuts | trapPutsp => exact .inl (runStringRoutine_sameRest h)
  | trapGetc | trapIn =>
    rcases exec_callsReadChar_inv h rfl with rfl | ⟨c, rest, out, -, rfl⟩ <;> exact .inl hs

end sameRest

/-! ## The console and the canonical form of memory -/

/-- The output log has grown at its end at most, the queue has lost its head at most, and memory is
still canonical. -/
def Advances (s t : State) : Prop :=
  s.output <+: t.output ∧ t.input <:+ s.input ∧ (s.mem.wf = true → t.mem.wf = true)

section advances

variable {i : Instr} {s t : State}

theorem advances_refl (s : State) : Advances s s := ⟨List.prefix_rfl, List.suffix_rfl, id⟩

theorem Advances.memRead (h : Advances s t) (a : Word) : Advances s (t.memRead a).2 := by
  obtain ⟨hout, hin, hwf⟩ := h
  exact ⟨by rwa [t.memRead_output], (t.memRead_input_suffix a).trans hin,
    fun hs => t.memRead_wf a (hwf hs)⟩

theorem Advances.writeCell (h : Advances s t) (a v : Word) : Advances s (t.writeCell a v) := by
  obtain ⟨hout, hin, hwf⟩ := h
  exact ⟨hout, hin, fun hs => Memory.wf_writeCell a v (hwf hs)⟩

theorem advances_writeChars (s : State) (bs : List Byte) : Advances s (s.writeChars bs) :=
  ⟨List.prefix_append _ _, List.suffix_rfl, id⟩

theorem advances_readInto (c : Byte) {rest : List Byte} (out : List Byte) (h : rest <:+ s.input) :
    Advances s (s.readInto c rest out) :=
  ⟨List.prefix_append _ _, h, id⟩

theorem runStringRoutine_advances {emit : Word → List Byte × Bool}
    (h : s.runStringRoutine emit = .next t) : Advances s t := by
  obtain ⟨u, hwalk, hrun⟩ := runStringRoutine_next s emit
  cases hrun.symm.trans h
  exact (State.walkString_frame emit hwalk).2

theorem exec_advances (h : exec i s = .next t) : Advances s t := by
  have hs := advances_refl s
  cases i with
  | addReg | addImm | andReg | andImm | not | lea | jmp | jsr | jsrr | trapUnhandled | rti | res =>
    cases h
    exact hs
  | br => cases (exec_br_eq_setPc ..).symm.trans h; exact hs
  | st | str => cases h; exact hs.writeCell ..
  | sti => cases h; exact (hs.memRead _).writeCell ..
  | ld | ldr => cases h; exact hs.memRead _
  | ldi => cases h; exact (hs.memRead _).memRead _
  | trapOut | trapHalt => cases h; exact advances_writeChars s _
  | trapPuts | trapPutsp => exact runStringRoutine_advances h
  | trapGetc | trapIn =>
    rcases exec_callsReadChar_inv h rfl with rfl | ⟨c, rest, out, hrest, rfl⟩
    · exact hs
    · exact advances_readInto c out hrest

end advances

/-! ## The host's acts (45_execution_cycle.md R180) -/

section host

variable (s : State)

theorem HostAction.apply_appendChar (c : Byte) (h : s.inputEnded = false) :
    (HostAction.appendChar c).apply s = { s with input := s.input ++ [c] } := by
  simp [HostAction.apply, h]

theorem HostAction.apply_appendChar_of_ended (c : Byte) (h : s.inputEnded = true) :
    (HostAction.appendChar c).apply s = s := by
  simp [HostAction.apply, h]

/-- An appended character is at the end of the queue or is ignored. -/
theorem HostAction.apply_appendChar_eq (c : Byte) :
    (HostAction.appendChar c).apply s =
      { s with input := s.input ++ if s.inputEnded then [] else [c] } := by
  by_cases h : s.inputEnded = true
  · rw [HostAction.apply_appendChar_of_ended s c h, if_pos h, List.append_nil]
  · rw [HostAction.apply_appendChar s c (Bool.eq_false_iff.2 h), if_neg h]

/-- A host act changes the queue and the host's two bits at most. -/
theorem HostAction.apply_frame (a : HostAction) :
    a.apply s = { s with
      input := (a.apply s).input, inputEnded := (a.apply s).inputEnded
      irqPending := (a.apply s).irqPending } := by
  cases a with
  | appendChar c => rw [HostAction.apply_appendChar_eq]
  | raiseInterrupt | endInput => rfl

end host

/-- Settles O56: each act as an update of one field, the appended character by whether the input has
ended. -/
theorem hostActsTouchOnlyTheBoundary : Obligations.HostActsTouchOnlyTheBoundary := by
  refine ⟨fun s c => ⟨HostAction.apply_appendChar s c, HostAction.apply_appendChar_of_ended s c,
    by rw [HostAction.apply_appendChar_eq], by rw [HostAction.apply_appendChar_eq]⟩, fun _ => rfl,
    fun _ => rfl, fun s a => ⟨HostAction.apply_frame s a, ?_⟩⟩
  cases a with
  | appendChar c =>
    rw [HostAction.apply_appendChar_eq]
    exact ⟨id, fun h => ⟨h, by simp [h]⟩, List.prefix_append _ _⟩
  | raiseInterrupt => exact ⟨fun _ => rfl, fun h => ⟨h, rfl⟩, List.prefix_rfl⟩
  | endInput => exact ⟨id, fun _ => ⟨rfl, rfl⟩, List.prefix_rfl⟩

/-! ## The invariant -/

/-- Outside FAULTED the fault record is consistent when there is none. -/
theorem State.faultConsistent_iff_of_run_ne {s : State} (h : s.run ≠ .faulted) :
    s.faultConsistent = true ↔ s.fault = none := by
  unfold State.faultConsistent
  cases hr : s.run <;> cases hf : s.fault <;> simp_all

/-- The record of an illegal word, raised right after its fetch, is consistent: the fetched word is
what its cell holds after the fetch (60_exceptions.md R201). -/
theorem State.faultConsistent_fetch_raiseIllegalOpcode (s : State) {op : BitVec 4}
    (hop : op = 0b1000#4 ∨ op = 0b1101#4) (hw : opcodeField s.fetch.1 = op) :
    (s.fetch.2.raiseIllegalOpcode op).faultConsistent = true := by
  have haddr : s.fetch.2.instrAddr = s.pc := State.instrAddr_setPc_succ _ s.pc
  have hcell : s.fetch.2.cell s.pc = s.fetch.1 := (s.memRead_value s.pc).symm
  simp [State.faultConsistent, haddr, hcell, -State.fetch_word, hw, hop]

/-- The invariant is kept by the fetch and the execution of the word fetched. -/
theorem exec_fetch_inv {s t : State} (hs : s.Inv) (hr : s.run = .running)
    (h : exec (decodeWord s.fetch.1) s.fetch.2 = .next t) : t.Inv := by
  obtain ⟨hcond, hwf, hfault, hanom⟩ := hs
  rw [State.faultConsistent_iff_of_run_ne (by simp [hr])] at hfault
  have hcond' : condOneHot t.cond = true := exec_condOneHot (by simpa using hcond) h
  have hwf' : t.mem.wf = true := (exec_advances h).2.2 (s.memRead_wf s.pc hwf)
  refine ⟨hcond', hwf', ?_⟩
  rcases exec_sameRest_cases h with ⟨⟨hrun, hsame⟩, hanom', -⟩ | ⟨-, rfl⟩ | ⟨v, hi, rfl⟩ |
    ⟨hi, rfl⟩ | ⟨hi, rfl⟩
  · rw [State.faultConsistent_iff_of_run_ne (by simp [hrun, hr]), hsame, hanom']
    exact ⟨by simpa using hfault, by simpa using hanom⟩
  · exact ⟨(State.faultConsistent_iff_of_run_ne (by simp)).2 (by simpa using hfault),
      by simpa using hanom⟩
  · have hv := isHandledVector_of_decodeWord hi
    exact ⟨(State.faultConsistent_iff_of_run_ne (by simp [hr])).2 (by simpa using hfault),
      by simpa [hv] using hanom⟩
  · exact ⟨s.faultConsistent_fetch_raiseIllegalOpcode (.inl rfl) (decodeWord_eq_rti_iff.1 hi),
      by simpa using hanom⟩
  · exact ⟨s.faultConsistent_fetch_raiseIllegalOpcode (.inr rfl) (decodeWord_eq_res_iff.1 hi),
      by simpa using hanom⟩

theorem step_inv {s t : State} (hs : s.Inv) (h : step s = .next t) : t.Inv := by
  rcases step_cases h with ⟨-, rfl⟩ | ⟨hr, -, rfl⟩ | ⟨-, -, -, rfl⟩ | ⟨hr, -, -, h⟩
  · exact hs
  · obtain ⟨hcond, hwf, hfault, hanom⟩ := hs
    rw [State.faultConsistent_iff_of_run_ne (by simp [hr])] at hfault
    exact ⟨hcond, hwf, (State.faultConsistent_iff_of_run_ne (by simp)).2 hfault, hanom⟩
  · exact hs
  · exact exec_fetch_inv hs hr h

theorem reset_inv (c : Config) : State.Inv { State.reset with config := c } :=
  ⟨rfl, rfl, rfl, rfl⟩

/-- An image load keeps the invariant of a machine that has not faulted: a record in FAULTED speaks
of a cell the load may write. -/
theorem loadImage_inv {s : State} (im : Image) (hr : s.run = .running) (hs : s.Inv) :
    (s.loadImage im).Inv := by
  obtain ⟨hcond, hwf, hfault, hanom⟩ := hs
  rw [State.faultConsistent_iff_of_run_ne (by simp [hr])] at hfault
  exact ⟨hcond, Memory.wf_loadWords _ _ hwf,
    (State.faultConsistent_iff_of_run_ne (by simp [hr])).2 hfault, hanom⟩

theorem boot_inv (c : Config) (images : List Image) : (boot c images).Inv :=
  (boot_of_kept (P := fun s => s.run = .running ∧ s.Inv) (fun c => ⟨rfl, reset_inv c⟩)
    (fun _ im ⟨hr, hs⟩ => ⟨hr, loadImage_inv im hr hs⟩) c images).2

/-- A host act touches nothing the invariant speaks of. -/
theorem hostAction_inv {s : State} (a : HostAction) (hs : s.Inv) : (a.apply s).Inv := by
  rw [HostAction.apply_frame s a]
  exact hs

/-- Settles O3: the events of a step before any fetch keep the invariant, and after a fetch the form
of the instruction says what it does to RUN, the record and the reports. -/
theorem stepKeepsInvariant : Obligations.StepKeepsInvariant := fun _ _ => step_inv

/-- Settles O4: the invariant holds after boot and every step and host act keeps it. -/
theorem reachableStatesMeetInvariant : Obligations.ReachableStatesMeetInvariant := fun _ h =>
  h.of_kept boot_inv (fun _ _ => step_inv) fun _ => hostAction_inv

/-- Settles O2: each part of the invariant of the reset state. -/
theorem resetMeetsInvariant : Obligations.ResetMeetsInvariant := reset_inv Config.default

/-! ## What a step appends and takes (10_state.md, the logs and the queue) -/

theorem exec_anomalies_prefix {i : Instr} {s t : State} (h : exec i s = .next t) :
    s.anomalies <+: t.anomalies := by
  rcases exec_sameRest_cases h with ⟨-, e, -⟩ | ⟨-, rfl⟩ | ⟨v, -, rfl⟩ | ⟨-, rfl⟩ | ⟨-, rfl⟩
  · rw [e]
  · exact List.prefix_rfl
  · exact List.prefix_append _ _
  · exact List.prefix_rfl
  · exact List.prefix_rfl

/-- No instruction writes what is the host's. -/
theorem exec_host_fields {i : Instr} {s t : State} (h : exec i s = .next t) :
    t.inputEnded = s.inputEnded ∧ t.irqPending = s.irqPending ∧ t.config = s.config := by
  rcases exec_sameRest_cases h with ⟨-, -, hhost⟩ | ⟨-, rfl⟩ | ⟨v, -, rfl⟩ | ⟨-, rfl⟩ | ⟨-, rfl⟩
  · exact hhost
  all_goals exact ⟨rfl, rfl, rfl⟩

/-- Settles O46: the fetch reads the bus, which takes from the queue at most; the rest is what the
executed instruction appends and takes. -/
theorem stepOnlyAppendsToLogsAndConsumesInput :
    Obligations.StepOnlyAppendsToLogsAndConsumesInput := by
  intro s t h
  rcases step_cases h with ⟨-, rfl⟩ | ⟨-, -, rfl⟩ | ⟨-, -, -, rfl⟩ | ⟨-, -, -, h⟩
  case inr.inr.inr =>
    obtain ⟨hout, hin, -⟩ := exec_advances h
    have hhost := exec_host_fields h
    exact ⟨by simpa using hout, by simpa using exec_anomalies_prefix h,
      hin.trans (s.memRead_input_suffix s.pc), by simpa using hhost⟩
  all_goals exact ⟨List.prefix_rfl, List.prefix_rfl, List.suffix_rfl, rfl, rfl, rfl⟩

/-! ## Every instruction and every step answers a next state (60_exceptions.md) -/

theorem exec_next_of_callsReadChar {i : Instr} (hc : callsReadChar i = true) (s : State) :
    ∃ t, exec i s = .next t := by
  rcases exec_callsReadChar_congr hc (s := s) rfl rfl rfl with ⟨e, -⟩ | ⟨c, rest, out, -, e, -⟩ <;>
    exact ⟨_, e⟩

theorem exec_next (i : Instr) (s : State) : ∃ t, exec i s = .next t := by
  cases i with
  | trapPuts | trapPutsp =>
    obtain ⟨t, -, e⟩ := runStringRoutine_next s _
    exact ⟨t, e⟩
  | trapGetc | trapIn => exact exec_next_of_callsReadChar rfl s
  | addReg | addImm | andReg | andImm | not | br | jmp | jsr | jsrr | ld | ldi | ldr | lea | st
  | sti | str | trapOut | trapHalt | trapUnhandled | rti | res => exact ⟨_, rfl⟩

theorem step_next (s : State) : ∃ t, step s = .next t := by
  unfold step
  cases s.cycleAction with
  | stopped | interrupt | hold => exact ⟨_, rfl⟩
  | execute => exact exec_next _ _

/-- Settles O47: every form answers, and RUN becomes FAULTED by RTI and RES alone. -/
theorem noInstructionOrStepStops : Obligations.NoInstructionOrStepStops := by
  refine ⟨fun i s => ?_, step_next⟩
  obtain ⟨t, h⟩ := exec_next i s
  refine ⟨t, h, fun hf => ?_⟩
  rcases exec_run_cases h with ⟨-, e⟩ | ⟨hi, -⟩ | ⟨-, -, -, e⟩
  · simp [e] at hf
  · exact .inr hi
  · exact .inl (e.symm.trans hf)

end Sys2Proof.Machine

/-! SUPPORT. The decoder over all words: fields, used bits, the rows of the table, sign extension.
-/

namespace Sys2Proof

/-- Settles O6: through each decoder, the word decoder's inverse. -/
theorem encodedInstructionDecodesToItself : Obligations.EncodedInstructionDecodesToItself := by
  intro i h
  have hdec := decodeWord_encode h
  exact ⟨hdec, fun rest => by rw [decode, hdec],
    by simp [decodeTableWord, decode, hdec, (encode i).isLt]⟩

/-- Settles O9: each word evaluated. -/
theorem exampleWordsDecodeAsTheSpecSays : Obligations.ExampleWordsDecodeAsTheSpecSays := by
  unfold Obligations.ExampleWordsDecodeAsTheSpecSays
  decide

/-! ## Fields and masks (30_encoding.md R93) -/

section fields

/-- A field put back where it was taken from is the word under the field's mask. -/
theorem place_bitField (w : Word) (hi lo : Nat) :
    place lo (bitField w hi lo) = w &&& place lo (BitVec.allOnes (hi - lo + 1)) := by
  apply BitVec.eq_of_getLsbD_eq
  intro i hlt
  by_cases hlo : i < lo
  · simp [place, hlo]
  · have hsum : lo + (i - lo) = i := by omega
    simp [place, bitField, hlo, hlt, hsum, Bool.and_comm]

/-- A mode bit put back where it was taken from. -/
theorem place_ofBool (w : Word) (k : Nat) :
    place k (BitVec.ofBool (w.getLsbD k)) = w &&& place k 1#1 := by
  apply BitVec.eq_of_getLsbD_eq
  intro i hlt
  by_cases hik : i = k
  · simp [place, hik, Bool.and_comm]
  · by_cases hlo : i < k
    · simp [place, hlo]
    · have hpos : i - k ≠ 0 := by omega
      simp [place, hpos]

/-- Words that agree under a mask have the same fields where the mask is all ones. -/
theorem bitField_eq_of_and_eq {w w' u : Word} {hi lo : Nat} (h : w &&& u = w' &&& u)
    (hu : bitField u hi lo = BitVec.allOnes _) : bitField w hi lo = bitField w' hi lo := by
  have hand (v : Word) : bitField (v &&& u) hi lo = bitField v hi lo := by
    rw [bitField, BitVec.extractLsb, BitVec.extractLsb'_and]
    exact (congrArg _ hu).trans BitVec.and_allOnes
  rw [← hand w, h, hand w']

theorem getLsbD_eq_of_and_eq {w w' u : Word} {k : Nat} (h : w &&& u = w' &&& u)
    (hu : u.getLsbD k = true) : w.getLsbD k = w'.getLsbD k := by
  simpa [hu] using congrArg (·.getLsbD k) h

/-- A mode bit that is set is the word under that bit. -/
theorem place_one_of_getLsbD {w : Word} {k : Nat} (h : w.getLsbD k = true) :
    place k 1#1 = w &&& place k 1#1 := by
  rw [← place_ofBool, h]
  rfl

/-- A mode bit that is clear adds nothing to what a mask keeps. -/
theorem and_or_place_of_getLsbD {w : Word} {k : Nat} (h : w.getLsbD k = false) (m : Word) :
    w &&& (m ||| place k 1#1) = w &&& m := by
  have hbit : w &&& place k 1#1 = 0#16 := by
    rw [← place_ofBool, h]
    simp [place]
  rw [BitVec.and_or_distrib_left, hbit, BitVec.or_zero]

end fields

/-! ## The words of an instruction (30_encoding.md R94) -/

/-- The word has the bits of the instruction's encoding wherever the instruction uses them. -/
def Instr.matchesWord (i : Instr) (w : Word) : Prop := w &&& i.usedBits = encode i &&& i.usedBits

theorem encode_decodeTrap (v : BitVec 8) : encode (decodeTrap v) = encodeTrap v := by
  unfold decodeTrap
  split <;> rfl

theorem usedBits_decodeTrap (v : BitVec 8) : (decodeTrap v).usedBits = 0xF0FF#16 := by
  unfold decodeTrap
  split <;> rfl

/-- Every word matches what it decodes to: each field goes back where it came from, so the encoding
is the word under the mask of the fields. -/
theorem matchesWord_decodeWord (w : Word) : (decodeWord w).matchesWord w := by
  unfold decodeWord
  split
  case h_2 h | h_6 h =>
    split
    · next h5 =>
      rw [Instr.matchesWord, encode, ← h, place_one_of_getLsbD h5]
      simp only [regHigh, regMid, Reg.toBits_ofBits, opcodeField, imm5Field, place_bitField,
        ← BitVec.and_or_distrib_left, BitVec.and_assoc, Instr.usedBits]
      rfl
    · next h5 =>
      have hmask := and_or_place_of_getLsbD (Bool.eq_false_iff.2 h5) 0xFFC7#16
      rw [Instr.matchesWord, encode, ← h]
      simp only [regHigh, regMid, regLow, Reg.toBits_ofBits, opcodeField, place_bitField,
        ← BitVec.and_or_distrib_left, BitVec.and_assoc, Instr.usedBits]
      exact hmask
  case h_5 h =>
    split
    · next h11 =>
      rw [Instr.matchesWord, encode, ← h, place_one_of_getLsbD h11]
      simp only [opcodeField, offset11Field, place_bitField,
        ← BitVec.and_or_distrib_left, BitVec.and_assoc, Instr.usedBits]
      rfl
    · next h11 =>
      have hmask := and_or_place_of_getLsbD (Bool.eq_false_iff.2 h11) 0xF1C0#16
      rw [Instr.matchesWord, encode, ← h]
      simp only [regMid, Reg.toBits_ofBits, opcodeField, place_bitField,
        ← BitVec.and_or_distrib_left, BitVec.and_assoc, Instr.usedBits]
      exact hmask
  case h_10 h =>
    have hones : place 0 0b111111#6 &&& 0xFFC0#16 = 0#16 := by decide
    rw [Instr.matchesWord, Instr.usedBits, encode, BitVec.and_or_distrib_right, hones,
      BitVec.or_zero, ← h]
    simp only [regHigh, regMid, Reg.toBits_ofBits, opcodeField, place_bitField,
      ← BitVec.and_or_distrib_left, BitVec.and_assoc]
    rfl
  case h_16 =>
    have hop : opcodeField w = 0b1111#4 := by
      have hcases := opcode_cases (opcodeField w)
      simp_all
    rw [Instr.matchesWord, encode_decodeTrap, usedBits_decodeTrap, encodeTrap, ← hop]
    simp only [opcodeField, vectorField, place_bitField, ← BitVec.and_or_distrib_left,
      BitVec.and_assoc]
    rfl
  all_goals
    next h =>
    rw [Instr.matchesWord, encode, ← h]
    simp only [regHigh, regMid, Reg.toBits_ofBits, opcodeField, offset6Field, offset9Field,
      place_bitField, place_ofBool, ← BitVec.and_or_distrib_left, BitVec.and_assoc, Instr.usedBits]
    rfl

/-- A word that matches an instruction has its opcode. -/
theorem opcodeField_of_matchesWord {i : Instr} {w : Word} (h : i.matchesWord w) :
    opcodeField w = opcodeField (encode i) :=
  bitField_eq_of_and_eq h (by cases i <;> simp [Instr.usedBits, bitField])

/-- A word matches no other instruction: every field that is an operand, and the mode bit, is used.
-/
theorem decodeWord_of_matchesWord {i : Instr} {w : Word} (hi : i.wellFormed = true)
    (h : i.matchesWord w) : decodeWord w = i := by
  by_cases hall : i.usedBits = BitVec.allOnes 16
  · rw [Instr.matchesWord, hall, BitVec.and_allOnes, BitVec.and_allOnes] at h
    rw [h, decodeWord_encode hi]
  have hop : opcodeField w = i.row.pattern.extractLsb' 12 4 := by
    rw [opcodeField_of_matchesWord h, ← opcodeField_row_decodeWord, decodeWord_encode hi]
    rfl
  cases i with
  | addImm | andImm | br | jsr | ld | ldi | ldr | lea | st | sti | str => exact absurd rfl hall
  | addReg | andReg =>
    have h5 : w[5] = false :=
      (getLsbD_eq_of_and_eq (k := 5) (u := 0xFFE7#16) h (by decide)).trans (by simp [encode, place])
    have hf (hi lo : Nat) := bitField_eq_of_and_eq (hi := hi) (lo := lo) (u := 0xFFE7#16) h
    simp [decodeWord, hop, Instr.row, h5, regHigh, regMid, regLow, hf 11 9 (by decide),
      hf 8 6 (by decide), hf 2 0 (by decide), encode, bitField_or, bitField_place_same,
      bitField_place_disjoint]
  | not =>
    have hf (hi lo : Nat) := bitField_eq_of_and_eq (hi := hi) (lo := lo) (u := 0xFFC0#16) h
    simp [decodeWord, hop, Instr.row, regHigh, regMid, hf 11 9 (by decide), hf 8 6 (by decide),
      encode, bitField_or, bitField_place_same, bitField_place_disjoint]
  | jmp =>
    have hf := bitField_eq_of_and_eq (hi := 8) (lo := 6) (u := 0xF1C0#16) h (by decide)
    simp [decodeWord, hop, Instr.row, regMid, hf, encode, bitField_or, bitField_place_same,
      bitField_place_disjoint]
  | jsrr =>
    have h11 : w[11] = false :=
      (getLsbD_eq_of_and_eq (k := 11) (u := 0xF9C0#16) h (by decide)).trans
        (by simp [encode, place])
    have hf := bitField_eq_of_and_eq (hi := 8) (lo := 6) (u := 0xF9C0#16) h (by decide)
    simp [decodeWord, hop, Instr.row, h11, regMid, hf, encode, bitField_or, bitField_place_same,
      bitField_place_disjoint]
  | trapGetc | trapOut | trapPuts | trapIn | trapPutsp | trapHalt | trapUnhandled =>
    have hv : vectorField w = vectorField (encode _) :=
      bitField_eq_of_and_eq (hi := 7) (lo := 0) (u := 0xF0FF#16) h (by decide)
    have hop : opcodeField w = 0b1111#4 := by simpa [Instr.row] using hop
    rw [decodeWord_of_trap hop, hv,
      ← decodeWord_of_trap ((opcodeField_of_matchesWord h).symm.trans hop)]
    exact decodeWord_encode hi
  | rti => exact decodeWord_of_rti hop
  | res => exact decodeWord_of_res hop

/-- The words of an instruction, all of them. -/
theorem decodeWord_eq_iff {i : Instr} (hi : i.wellFormed = true) (w : Word) :
    decodeWord w = i ↔ i.matchesWord w :=
  ⟨fun h => h ▸ matchesWord_decodeWord w, decodeWord_of_matchesWord hi⟩

/-- Settles O8: both words match the one instruction. -/
theorem exactlyTheIgnoredBitsAreIgnored : Obligations.ExactlyTheIgnoredBitsAreIgnored := by
  intro w w'
  have hw : (decodeWord w).matchesWord w := matchesWord_decodeWord w
  rw [eq_comm, decodeWord_eq_iff (decodeWord_wellFormed w), Instr.matchesWord, hw, eq_comm]

/-! ## The rows of the opcode table (30_encoding.md R98) -/

/-- An instruction's word selects its row: the lemmas of `EncodedRow`, form by form. -/
theorem row_selects_encode {i : Instr} (hi : i.wellFormed = true) :
    i.row.selects (encode i) = true := by
  cases i with
  | addReg => exact Laws.EncodedRow.addReg _ _ _ hi
  | addImm => exact Laws.EncodedRow.addImm _ _ _ hi
  | andReg => exact Laws.EncodedRow.andReg _ _ _ hi
  | andImm => exact Laws.EncodedRow.andImm _ _ _ hi
  | not => exact Laws.EncodedRow.not _ _ hi
  | br => exact Laws.EncodedRow.br _ _ _ _ hi
  | jmp => exact Laws.EncodedRow.jmp _ hi
  | jsr => exact Laws.EncodedRow.jsr _ hi
  | jsrr => exact Laws.EncodedRow.jsrr _ hi
  | ld => exact Laws.EncodedRow.ld _ _ hi
  | ldi => exact Laws.EncodedRow.ldi _ _ hi
  | ldr => exact Laws.EncodedRow.ldr _ _ _ hi
  | lea => exact Laws.EncodedRow.lea _ _ hi
  | st => exact Laws.EncodedRow.st _ _ hi
  | sti => exact Laws.EncodedRow.sti _ _ hi
  | str => exact Laws.EncodedRow.str _ _ _ hi
  | trapGetc => exact Laws.EncodedRow.trapGetc hi
  | trapOut => exact Laws.EncodedRow.trapOut hi
  | trapPuts => exact Laws.EncodedRow.trapPuts hi
  | trapIn => exact Laws.EncodedRow.trapIn hi
  | trapPutsp => exact Laws.EncodedRow.trapPutsp hi
  | trapHalt => exact Laws.EncodedRow.trapHalt hi
  | trapUnhandled => exact Laws.EncodedRow.trapUnhandled _ hi
  | rti => exact Laws.EncodedRow.rti hi
  | res => exact Laws.EncodedRow.res hi

theorem TableRow.selects_iff (r : TableRow) (w : Word) :
    r.selects w = true ↔ w &&& r.mask = r.pattern := beq_iff_eq

theorem row_mem_opcodeTable (i : Instr) : i.row ∈ opcodeTable := by
  cases i <;> simp [opcodeTable, tableForms, Instr.row]

/-- A row tests only bits its instructions use. -/
theorem usedBits_and_row_mask (i : Instr) : i.usedBits &&& i.row.mask = i.row.mask := by
  cases i <;> dsimp only [Instr.usedBits, Instr.row] <;> decide

/-- A row's match has no bits outside its mask. -/
theorem row_pattern_and_mask (i : Instr) : i.row.pattern &&& i.row.mask = i.row.pattern := by
  cases i <;> dsimp only [Instr.row] <;> decide

/-- Every word of an instruction selects its row, as its encoding does. -/
theorem row_selects_of_matchesWord {i : Instr} {w : Word} (hi : i.wellFormed = true)
    (h : i.matchesWord w) : i.row.selects w = true := by
  have henc := (i.row.selects_iff _).1 (row_selects_encode hi)
  have hmask := usedBits_and_row_mask i
  rw [TableRow.selects_iff, ← hmask, ← BitVec.and_assoc, h, BitVec.and_assoc, hmask, henc]

/-- A row that is not the fallback is selected by the words of its own form alone: its mask fixes
the opcode and, where the opcode has several forms, the mode bit or the vector. -/
theorem row_decodeWord_of_selects {j : Instr} {w : Word} (hsel : j.row.selects w = true)
    (hfallback : j.row.fallback = false) : (decodeWord w).row = j.row := by
  have h : w &&& j.row.mask = j.row.pattern &&& j.row.mask := by
    rw [(j.row.selects_iff w).1 hsel, row_pattern_and_mask]
  have hop : opcodeField w = j.row.pattern.extractLsb' 12 4 :=
    bitField_eq_of_and_eq h (by cases j <;> simp [Instr.row, bitField])
  cases j with
  | not | br | jmp | ld | ldi | ldr | lea | st | sti | str | rti | res =>
    simp [decodeWord, hop, Instr.row]
  | addReg | addImm | andReg | andImm =>
    have h5 : w[5] = _ := getLsbD_eq_of_and_eq (k := 5) (u := 0xF020#16) h (by decide)
    simp [decodeWord, hop, h5, Instr.row]
  | jsr | jsrr =>
    have h11 : w[11] = _ := getLsbD_eq_of_and_eq (k := 11) (u := 0xF800#16) h (by decide)
    simp [decodeWord, hop, h11, Instr.row]
  | trapGetc | trapOut | trapPuts | trapIn | trapPutsp | trapHalt =>
    have hv : vectorField w = _ :=
      bitField_eq_of_and_eq (hi := 7) (lo := 0) (u := 0xF0FF#16) h (by decide)
    rw [decodeWord_of_trap hop, hv]
    rfl
  | trapUnhandled => cases hfallback

/-- Settles O7: a word matches the instruction it decodes to and so selects its row, and any other
row it selects is the fallback. -/
theorem everyWordDecodesToItsOneTableRow : Obligations.EveryWordDecodesToItsOneTableRow := by
  refine ⟨rfl, fun w => ⟨decodeWord_wellFormed w, row_mem_opcodeTable _,
    row_selects_of_matchesWord (decodeWord_wellFormed w) (matchesWord_decodeWord w),
    fun r hr hsel hfallback => ?_⟩⟩
  obtain ⟨j, -, rfl⟩ := List.mem_map.1 hr
  exact (row_decodeWord_of_selects hsel hfallback).symm

end Sys2Proof

namespace Sys2Proof.Machine

/-! ## Sign extension (00_scope.md R7) -/

/-- The bits of a sign-extended field: ones above a field whose top bit is set. -/
theorem sext_eq_setWidth_add {n : Nat} (hn : n ≤ 16) (v : BitVec n) :
    sext v = if v.getLsbD (n - 1) then v.setWidth 16 + (0xFFFF#16 <<< n) else v.setWidth 16 := by
  have hmsb : v.msb = v.getLsbD (n - 1) := BitVec.msb_eq_getLsbD_last v
  split
  · next h =>
    have hdisjoint : v.setWidth 16 &&& 0xFFFF#16 <<< n = 0#16 := by
      apply BitVec.eq_of_getLsbD_eq
      intro i hi
      by_cases hin : i < n
      · simp [hin]
      · simp [BitVec.getLsbD_of_ge v i (by omega)]
    rw [BitVec.add_eq_or_of_and_eq_zero _ _ hdisjoint]
    apply BitVec.eq_of_getLsbD_eq
    intro i hi
    rw [sext, BitVec.getLsbD_signExtend, hmsb, h]
    by_cases hin : i < n
    · simp [hin, hi]
    · have hlt : i - n < 16 := by omega
      have hones : (0xFFFF#16).getLsbD (i - n) = true :=
        BitVec.getLsbD_allOnes.trans (decide_eq_true hlt)
      simp [hin, hi, hones]
  · next h =>
    exact BitVec.signExtend_eq_setWidth_of_msb_false (hmsb.trans (Bool.eq_false_iff.2 h))

/-- Settles O10: the four widths are all at most 16. -/
theorem signExtensionKeepsTheSignedValue : Obligations.SignExtensionKeepsTheSignedValue := by
  intro n hn v
  have hwidth : n ≤ 16 := by omega
  exact ⟨BitVec.toInt_signExtend_of_le hwidth, sext_eq_setWidth_add hwidth v⟩

end Sys2Proof.Machine

/-! SUPPORT. The TRAP routines, the bus and the keyboard, the hold and the events of a step. -/

namespace Sys2Proof.Machine

/-! ## GETC and IN (43_trap.md R152, R155) -/

/-- The flag of a character code is never NEGATIVE. -/
theorem flagsOf_zext8 (c : Byte) : flagsOf (zext8 c) = if c = 0#8 then flZ else flP := by
  have hzero : zext8 c = 0#16 ↔ c = 0#8 := by
    unfold zext8
    bv_omega
  have htop : (zext8 c).getLsbD 15 = false := by simp [zext8]
  simp only [flagsOf, hzero, htop, Bool.false_eq_true, if_false]

theorem readRoutineEffect_readInto (s : State) (c : Byte) (rest out : List Byte) :
    ReadRoutineEffect s (s.readInto c rest out) c rest out := by
  have hregs : SameRegsExcept [.r7, .r0] s (s.readInto c rest out) := fun r hr => by
    obtain ⟨h7, h0⟩ : r ≠ .r7 ∧ r ≠ .r0 := by simpa using hr
    exact (State.reg_writeReg_other _ _ h0).trans (State.reg_writeReg_other _ _ h7)
  exact ⟨⟨rfl, hregs, rfl⟩, rfl, flagsOf_zext8 c, rfl, fun _ _ => rfl, rfl, rfl, sameRest_refl s⟩

/-- GETC or IN with a character queued reads it, whatever it then writes. -/
theorem exec_callsReadChar_of_cons {i : Instr} {s : State} {c : Byte} {rest : List Byte}
    (hc : callsReadChar i = true) (h : s.input = c :: rest) :
    ∃ t out, exec i s = .next t ∧ ReadRoutineEffect s t c rest out := by
  have hread := State.readChar_of_cons h
  rcases eq_trapGetc_or_trapIn_of_callsReadChar hc with rfl | rfl
  · exact ⟨_, _, exec_trapGetc_of_readChar hread, readRoutineEffect_readInto ..⟩
  · exact ⟨_, _, exec_trapIn_of_readChar hread, readRoutineEffect_readInto ..⟩

/-- Settles O28: the three ways a console read can go. -/
theorem getcReadsOneCharacterIntoR0 : Obligations.GetcReadsOneCharacterIntoR0 := fun s =>
  ⟨fun _ _ hi => ⟨_, exec_trapGetc_of_readChar (State.readChar_of_cons hi),
      readRoutineEffect_readInto ..⟩,
    fun _ hi he hv => ⟨_, exec_trapGetc_of_readChar (State.readChar_of_ended hi he hv),
      readRoutineEffect_readInto ..⟩,
    fun hi hb => exec_trapGetc_of_none s (State.readChar_eq_none_iff.2 ⟨hi, hb⟩)⟩

/-- Settles O29: as GETC, the output being the prompt and the echo. -/
theorem inPromptsReadsAndEchoes : Obligations.InPromptsReadsAndEchoes := fun s =>
  ⟨fun _ _ hi => ⟨_, exec_trapIn_of_readChar (State.readChar_of_cons hi),
      readRoutineEffect_readInto ..⟩,
    fun _ hi he hv => ⟨_, exec_trapIn_of_readChar (State.readChar_of_ended hi he hv),
      readRoutineEffect_readInto ..⟩,
    fun hi hb => exec_trapIn_of_none s (State.readChar_eq_none_iff.2 ⟨hi, hb⟩)⟩

/-! ## OUT, HALT and the unhandled vectors (43_trap.md R153, R157, R158) -/

/-- Linking R7 at the incremented PC is what every TRAP does first. -/
theorem trapEntryEffect_writeReg (s : State) :
    TrapEntryEffect s (s.writeReg .r7 s.pc) [] :=
  ⟨s.reg_writeReg_same .r7 s.pc,
    fun _ hr => s.reg_writeReg_other s.pc (List.ne_of_not_mem_cons hr), rfl⟩

/-- A routine that writes `out` and may end the run. -/
theorem writeRoutineEffect_writeChars (s : State) (out : List Byte) (run : RunState) :
    WriteRoutineEffect s { (s.writeReg .r7 s.pc).writeChars out with run := run } out run :=
  ⟨trapEntryEffect_writeReg s, rfl, rfl, fun _ _ => rfl, rfl, rfl, rfl, rfl, rfl, rfl, rfl, rfl⟩

/-- Settles O30: OUT writes one byte. -/
theorem outWritesTheLowByteOfR0 : Obligations.OutWritesTheLowByteOfR0 := fun s =>
  ⟨_, exec_trapOut s, writeRoutineEffect_writeChars ..⟩

/-- Settles O35: HALT writes the notice and ends the run. -/
theorem haltWritesTheNoticeAndHalts : Obligations.HaltWritesTheNoticeAndHalts := fun s =>
  ⟨_, exec_trapHalt s, writeRoutineEffect_writeChars ..⟩

/-- Settles O36: after the link of R7 the report is the only effect. -/
theorem unhandledTrapIsReportedAndExecutionGoesOn :
    Obligations.UnhandledTrapIsReportedAndExecutionGoesOn := fun v s =>
  ⟨_, exec_trapUnhandled s v, trapEntryEffect_writeReg s, rfl, rfl, rfl, fun _ _ => rfl, ⟨rfl, rfl⟩,
    ⟨rfl, rfl⟩, rfl, rfl, rfl⟩

/-! ## The string walks (43_trap.md R154, R156) -/

theorem State.writeChars_nil (s : State) : s.writeChars [] = s := by
  simp [State.writeChars]

theorem State.writeChar_writeChars (s : State) (b : Byte) (bs : List Byte) :
    (s.writeChar b).writeChars bs = s.writeChars (b :: bs) := by
  simp [State.writeChar, State.writeChars]

theorem State.writeChar_writeChar (s : State) (b b' : Byte) :
    (s.writeChar b).writeChar b' = s.writeChars [b, b'] := s.writeChar_writeChars b [b']

section walk

variable {emit : Word → List Byte × Bool} {fuel : Nat} {a : Word} {s t : State}

/-- A walk's bus reads change KBSR and KBDR at most. -/
theorem sameCellsExcept_walkString (h : State.walkString emit fuel a s = some t) :
    SameCellsExcept [kbsrAddr, kbdrAddr] s t := by
  induction fuel generalizing a s with
  | zero => simp [State.walkString] at h
  | succ n ih =>
    have hread := sameCellsExcept_memRead s a
    unfold State.walkString at h
    split at h
    · cases h
      exact hread
    · split at h
      · cases h
        exact hread
      · exact fun c hc => (ih h c hc).trans (hread c hc)

theorem stringRoutineFrame_of_walkString
    (h : State.walkString emit fuel a (s.writeReg .r7 s.pc) = some t) : StringRoutineFrame s t := by
  have hcells := sameCellsExcept_walkString h
  have hframe := (State.walkString_frame emit h).1
  refine ⟨?_, by rw [hframe]; rfl, hcells, by rw [hframe]; exact sameRest_refl s⟩
  rw [hframe]
  exact trapEntryEffect_writeReg s

/-- A walk of PUTS that ends is the loop of its pseudocode. -/
theorem putsLoop_of_walkString (h : State.walkString putsCell fuel a s = some t) :
    PutsLoop a s t := by
  induction fuel generalizing a s with
  | zero => simp [State.walkString] at h
  | succ n ih =>
    unfold State.walkString at h
    split at h
    · next hz => cases h; exact .zeroCell a s hz
    · next hz => exact .cell a s t hz (ih h)

theorem putspCell_of_high {w : Word} (h : highByte w ≠ 0#8) (stops : Bool) :
    putspCell stops w = ([lowByte w, highByte w], false) := if_pos h

theorem putspCell_of_no_high {w : Word} (h : highByte w = 0#8) (stops : Bool) :
    putspCell stops w = ([lowByte w], stops) := if_neg (not_not.2 h)

/-- A walk of PUTSP that ends is the loop of its pseudocode. -/
theorem putspLoop_of_walkString {stops : Bool} (hstops : s.config.putspZeroHighStops = stops)
    (h : State.walkString (putspCell stops) fuel a s = some t) : PutspLoop a s t := by
  induction fuel generalizing a s with
  | zero => simp [State.walkString] at h
  | succ n ih =>
    unfold State.walkString at h
    by_cases hz : (s.memRead a).1 = 0#16
    · rw [if_pos hz] at h
      cases h
      exact .zeroCell a s hz
    rw [if_neg hz] at h
    by_cases hhigh : highByte (s.memRead a).1 = 0#8
    · rw [putspCell_of_no_high hhigh] at h
      cases stops with
      | true =>
        cases h
        exact .zeroHighStops a s hz hhigh hstops
      | false => exact .lowByteOnly a s t hz hhigh hstops (ih (by simpa using hstops) h)
    · rw [putspCell_of_high hhigh] at h
      refine .bothBytes a s t hz hhigh ?_
      rw [State.writeChar_writeChar]
      exact ih (by simpa using hstops) h

/-- The loop of PUTS ends in one state at most. -/
theorem PutsLoop.unique {t' : State} (h : PutsLoop a s t) (h' : PutsLoop a s t') : t' = t := by
  induction h with
  | zeroCell a s hz =>
    cases h' with
    | zeroCell => rfl
    | cell _ _ _ hnz => exact absurd hz hnz
  | cell a s t hnz _ ih =>
    cases h' with
    | zeroCell _ _ hz => exact absurd hz hnz
    | cell _ _ _ _ hrest => exact ih hrest

/-- The loop of PUTSP ends in one state at most. -/
theorem PutspLoop.unique {t' : State} (h : PutspLoop a s t) (h' : PutspLoop a s t') : t' = t := by
  induction h with
  | zeroCell a s hz =>
    cases h' with
    | zeroCell => rfl
    | _ => contradiction
  | bothBytes a s t hnz hhigh _ ih =>
    cases h' with
    | bothBytes _ _ _ _ _ hrest => exact ih hrest
    | _ => contradiction
  | lowByteOnly a s t hnz hhigh hgo _ ih =>
    cases h' with
    | lowByteOnly _ _ _ _ _ _ hrest => exact ih hrest
    | zeroHighStops _ _ _ _ hstop => simp [hgo] at hstop
    | _ => contradiction
  | zeroHighStops a s hnz hhigh hstop =>
    cases h' with
    | zeroHighStops => rfl
    | lowByteOnly _ _ _ _ _ hgo => simp [hstop] at hgo
    | _ => contradiction

end walk

/-- Settles O31: the walk ends, is the loop, and the loop has one end. -/
theorem putsEndsAndRunsTheSpecLoop : Obligations.PutsEndsAndRunsTheSpecLoop := by
  intro s
  obtain ⟨t, hwalk, hrun⟩ := runStringRoutine_next s putsCell
  have hloop := putsLoop_of_walkString hwalk
  exact ⟨t, hrun, hloop, fun _ => hloop.unique, stringRoutineFrame_of_walkString hwalk⟩

/-- Settles O33: as PUTS. -/
theorem putspEndsAndRunsTheSpecLoop : Obligations.PutspEndsAndRunsTheSpecLoop := by
  intro s
  obtain ⟨t, hwalk, hrun⟩ := runStringRoutine_next s (putspCell s.config.putspZeroHighStops)
  have hloop := putspLoop_of_walkString (s := s.writeReg .r7 s.pc) rfl hwalk
  exact ⟨t, hrun, hloop, fun _ => hloop.unique, stringRoutineFrame_of_walkString hwalk⟩

/-! ## Strings in ordinary memory -/

/-- A string is in the cells alone. -/
theorem StringAt.of_cells {s : State} {a : Word} {ws : List Word} (h : StringAt s a ws) (t : State)
    (hcells : ∀ a, t.cell a = s.cell a) : StringAt t a ws := by
  induction ws generalizing a with
  | nil =>
    obtain ⟨ha, hz⟩ := h
    exact ⟨ha, (hcells a).trans hz⟩
  | cons w ws ih =>
    obtain ⟨ha, hw, hnz, hrest⟩ := h
    exact ⟨ha, (hcells a).trans hw, hnz, ih hrest⟩

theorem putsLoop_of_stringAt {s : State} {a : Word} {ws : List Word} (h : StringAt s a ws) :
    PutsLoop a s (s.writeChars (ws.map fun w => w.extractLsb' 0 8)) := by
  induction ws generalizing a s with
  | nil =>
    obtain ⟨ha, hz⟩ := h
    have hread := s.memRead_ne ha
    simpa [hread, State.writeChars_nil] using PutsLoop.zeroCell a s (by rw [hread, hz])
  | cons w ws ih =>
    obtain ⟨ha, rfl, hnz, hrest⟩ := h
    have hread := s.memRead_ne ha
    have htail := ih (hrest.of_cells (s.writeChar ((s.cell a).extractLsb' 0 8)) fun _ => rfl)
    refine .cell a s _ (by rwa [hread]) ?_
    rw [hread, List.map_cons, ← State.writeChar_writeChars]
    exact htail

theorem putspLoop_of_stringAt {s : State} {a : Word} {ws : List Word} (h : StringAt s a ws) :
    PutspLoop a s (s.writeChars (packedBytes s.config.putspZeroHighStops ws)) := by
  induction ws generalizing a s with
  | nil =>
    obtain ⟨ha, hz⟩ := h
    have hread := s.memRead_ne ha
    simpa [hread, packedBytes, State.writeChars_nil] using
      PutspLoop.zeroCell a s (by rw [hread, hz])
  | cons w ws ih =>
    obtain ⟨ha, rfl, hnz, hrest⟩ := h
    have hread := s.memRead_ne ha
    have htail (bs : List Byte) := ih (hrest.of_cells (s.writeChars bs) fun _ => rfl)
    have hnz' : (s.memRead a).1 ≠ 0#16 := by rwa [hread]
    by_cases hhigh : (s.cell a).extractLsb' 8 8 = 0#8
    · have hhigh' : (s.memRead a).1.extractLsb' 8 8 = 0#8 := by rwa [hread]
      cases hstops : s.config.putspZeroHighStops with
      | true =>
        have hloop := PutspLoop.zeroHighStops a s hnz' hhigh' hstops
        rw [hread] at hloop
        rw [packedBytes, if_neg (not_not.2 hhigh), if_pos rfl]
        exact hloop
      | false =>
        refine .lowByteOnly a s _ hnz' hhigh' hstops ?_
        rw [packedBytes, if_neg (not_not.2 hhigh), if_neg Bool.false_ne_true, hread,
          ← State.writeChar_writeChars, ← hstops]
        exact htail [(s.cell a).extractLsb' 0 8]
    · refine .bothBytes a s _ hnz' (by rwa [hread]) ?_
      rw [packedBytes, if_pos hhigh, hread, ← State.writeChar_writeChars,
        ← State.writeChar_writeChars, State.writeChar_writeChar]
      exact htail _

/-- Settles O32: the string's loop is the one loop PUTS runs. -/
theorem putsWritesAnOrdinaryString : Obligations.PutsWritesAnOrdinaryString := by
  intro s ws h
  obtain ⟨t, hrun, -, hunique, -⟩ := putsEndsAndRunsTheSpecLoop s
  have hstring := h.of_cells (s.writeReg .r7 s.pc) fun _ => rfl
  rw [← hunique _ (putsLoop_of_stringAt hstring)] at hrun
  exact ⟨_, hrun, writeRoutineEffect_writeChars ..⟩

/-- Settles O34: as PUTS. -/
theorem putspWritesAPackedString : Obligations.PutspWritesAPackedString := by
  intro s ws h
  obtain ⟨t, hrun, -, hunique, -⟩ := putspEndsAndRunsTheSpecLoop s
  have hstring := h.of_cells (s.writeReg .r7 s.pc) fun _ => rfl
  rw [← hunique _ (putspLoop_of_stringAt hstring)] at hrun
  exact ⟨_, hrun, writeRoutineEffect_writeChars ..⟩

/-! ## The bus and the keyboard (20_memory.md R53, R54) -/

/-- Settles O38: the three cases of a bus read, the cells it changes being those it writes. -/
theorem busReadPollsAtKbsr : Obligations.BusReadPollsAtKbsr := by
  refine fun s => ⟨fun a ha => s.memRead_ne ha, fun hi => ?_, fun c rest hi => ?_⟩
  · rw [show s.memRead 0xFE00#16 = _ from s.memRead_kbsr_nil hi]
    exact ⟨rfl, s.cell_writeCell_same kbsrAddr 0#16,
      (sameCellsExcept_refl s).writeCell kbsrAddr 0#16, rfl⟩
  · have hcells := sameCellsExcept_memRead s kbsrAddr
    have hvalue := s.memRead_value kbsrAddr
    rw [s.memRead_kbsr_cons hi] at hcells hvalue
    rw [show s.memRead 0xFE00#16 = _ from s.memRead_kbsr_cons hi]
    exact ⟨rfl, hvalue.symm, State.cell_writeCell_same .., hcells, rfl⟩

/-- Settles O39: a write is `State.writeCell`; a read of the cell away from KBSR finds the value,
and at KBSR with no key it finds zero. -/
theorem busWriteStoresOneCell : Obligations.BusWriteStoresOneCell := by
  refine fun s a v => ⟨s.cell_writeCell_same a v, (sameCellsExcept_refl s).writeCell a v, rfl,
    Memory.wf_writeCell a v, fun ha => ?_, fun ha hi => ?_⟩
  · rw [State.memWrite_eq, State.memRead_ne _ ha, State.cell_writeCell_same]
  · rw [ha]
    exact congrArg Prod.fst (State.memRead_kbsr_nil (s.memWrite _ v) hi)

/-- Settles O40: the first read of KBSR takes the key into KBDR, the second finds none and leaves
KBDR. -/
theorem keyboardProtocolYieldsTheKeyOnce : Obligations.KeyboardProtocolYieldsTheKeyOnce := by
  intro s c hi
  obtain ⟨-, -, hkey⟩ := busReadPollsAtKbsr s
  obtain ⟨hready, -, hcode, -, hframe⟩ := hkey c [] hi
  intro r1 r2 r3 r4
  have hinput : r1.2.input = [] := congrArg State.input hframe
  have hr2 : r2 = (r1.2.cell 0xFE02#16, r1.2) := r1.2.memRead_ne (by decide)
  obtain ⟨-, hnone, -⟩ := busReadPollsAtKbsr r1.2
  obtain ⟨hzero, -, hcells, -⟩ := hnone hinput
  have hr3 : r3 = r1.2.memRead 0xFE00#16 := congrArg (fun r => r.2.memRead 0xFE00#16) hr2
  have hr4 : r4 = (r3.2.cell 0xFE02#16, r3.2) := r3.2.memRead_ne (by decide)
  refine ⟨hready, hinput, by rw [hr2]; exact hcode, by rw [hr2], by rw [hr3]; exact hzero, ?_⟩
  rw [hr4, hr3]
  exact (hcells 0xFE02#16 (by decide)).trans hcode

/-! ## The hold (45_execution_cycle.md R187) -/

section hold

variable {s : State}

theorem State.wouldBlock_iff : s.wouldBlock = true ↔ s.readChar = none := by
  simp [State.wouldBlock]

theorem State.heldForInput_iff : s.heldForInput = true ↔
    s.pc ≠ kbsrAddr ∧ callsReadChar (decodeWord (s.cell s.pc)) = true ∧ s.readChar = none := by
  simp [State.heldForInput, readsChar_eq_callsReadChar_decodeWord, State.wouldBlock_iff, and_assoc]

theorem readsChar_iff (w : Word) : readsChar w = true ↔
    opcodeField w = 0b1111#4 ∧ (vectorField w = 0x20#8 ∨ vectorField w = 0x23#8) := by
  simp [readsChar]

/-- Fetching and executing the instruction of a held core gives the state back: exec takes PC back
over the increment. -/
theorem exec_fetch_of_heldForInput (h : s.heldForInput = true) :
    exec (decodeWord s.fetch.1) s.fetch.2 = .next s := by
  obtain ⟨hpc, hcalls, hnone⟩ := State.heldForInput_iff.1 h
  have hnone' : (s.setPc (s.pc + 1#16)).readChar = none := by
    rwa [State.readChar_eq_none_iff] at hnone ⊢
  rw [s.fetch_ne hpc, exec_callsReadChar_of_none hcalls hnone', State.instrAddr_setPc_succ]
  rfl

end hold

/-- Settles O43: the hold test, each part in the spec's terms. -/
theorem heldExactlyAtABlockedReadTrap : Obligations.HeldExactlyAtABlockedReadTrap := by
  refine fun s => ⟨?_, exec_fetch_of_heldForInput⟩
  rw [State.heldForInput_iff, ← readsChar_eq_callsReadChar_decodeWord, readsChar_iff,
    State.readChar_eq_none_iff, and_assoc]
  exact Iff.rfl

/-! ## The events of a step (60_exceptions.md R206) -/

section events

variable {s : State}

theorem step_of_ended (h : s.run ≠ .running) : step s = .next s := by
  simp [step, State.cycleAction, h]

theorem step_of_interrupt (hr : s.run = .running) (hi : s.irqPending = true) :
    step s = .next s.takeInterrupt := by
  simp [step, State.cycleAction, hr, hi]

theorem step_of_hold (hr : s.run = .running) (hi : s.irqPending = false)
    (hh : s.heldForInput = true) : step s = .next s := by
  simp [step, State.cycleAction, hr, hi, hh]

/-- A step away from KBSR, neither stopped nor interrupted, whose instruction reads no character or
has one to read, runs the instruction of the raw cell at PC. -/
theorem step_of_decodeWord {i : Instr} (hr : s.run = .running) (hi : s.irqPending = false)
    (hpc : s.pc ≠ kbsrAddr) (hdec : decodeWord (s.cell s.pc) = i)
    (hchar : callsReadChar i = true → s.input ≠ []) :
    step s = exec i (s.setPc (s.pc + 1#16)) := by
  have hh : s.heldForInput = false := Bool.eq_false_iff.2 fun hh => by
    obtain ⟨-, hcalls, hnone⟩ := State.heldForInput_iff.1 hh
    exact hchar (hdec ▸ hcalls) (State.readChar_eq_none_iff.1 hnone).1
  rw [step_of_execute hr hi hh, s.fetch_ne hpc, hdec]

end events

/-- Settles O42: the events in their order. -/
theorem terminalThenInterruptThenHold : Obligations.TerminalThenInterruptThenHold :=
  ⟨fun _ => step_of_ended, fun _ => step_of_interrupt, fun _ => step_of_hold⟩

/-- Settles O44: with the character queued the read does not block, so the core is not held and GETC
or IN reads it; the interrupt is seen before the hold. -/
theorem characterOrInterruptLiftsTheHold : Obligations.CharacterOrInterruptLiftsTheHold := by
  intro s c hr hi hh
  obtain ⟨hpc, hcalls, hnone⟩ := State.heldForInput_iff.1 hh
  obtain ⟨hinput, -⟩ := State.readChar_eq_none_iff.1 hnone
  refine ⟨fun he => ?_, step_of_interrupt hr rfl⟩
  rw [HostAction.apply_appendChar s c he, hinput, List.nil_append]
  have hstep := step_of_decodeWord (s := { s with input := [c] }) hr hi hpc rfl
    fun _ => List.cons_ne_nil c []
  rw [hstep]
  obtain ⟨t, out, hexec, ⟨hr7, -, htpc⟩, hr0, -, -, -, htinput, -⟩ := exec_callsReadChar_of_cons
    (s := State.setPc { s with input := [c] } (s.pc + 1#16)) hcalls rfl
  exact ⟨t, hexec, hr0, hr7, htpc, htinput⟩

/-- Settles O37: the two forms raise the fault, and their words, which read no character, run as
steps. -/
theorem illegalOpcodeEntersFaultedWithTheRecord :
    Obligations.IllegalOpcodeEntersFaultedWithTheRecord := by
  refine ⟨exec_rti, exec_res, fun s hr hi hpc hop => ?_⟩
  have hfault (op : BitVec 4) : (s.setPc (s.pc + 1#16)).raiseIllegalOpcode op =
      { s with pc := s.pc + 1#16, run := .faulted, fault := some ⟨s.pc, op⟩ } := by
    rw [State.raiseIllegalOpcode, State.instrAddr_setPc_succ]
    rfl
  rcases hop with h | h
  · rw [step_of_decodeWord hr hi hpc (decodeWord_of_rti h) nofun, exec_rti, hfault, h]
  · rw [step_of_decodeWord hr hi hpc (decodeWord_of_res h) nofun, exec_res, hfault, h]

/-! ## JSRR and the PC after each form (10_state.md R24, 41_control.md R123) -/

/-- Settles O19: the decoder's row for opcode 0100 with the mode bit clear, and the frame of a write
to PC followed by that of the write of R7; the base register after that write is the target. -/
theorem jsrrLinksR7ThenReadsTheBase : Obligations.JsrrLinksR7ThenReadsTheBase := by
  refine ⟨fun w h hmode => (decodeWord_of_jsr_or_jsrr h).trans (if_neg (Bool.eq_false_iff.1 hmode)),
    fun base s => ?_⟩
  have htarget := s.reg_writeReg .r7 base s.pc
  have heffect := (controlEffect_setPc s ((s.writeReg .r7 s.pc).reg base)).writeReg .r7 s.pc
  exact ⟨_, rfl, s.reg_writeReg_same .r7 s.pc, heffect, fun h => htarget.trans (if_pos h),
    fun h => htarget.trans (if_neg h)⟩

/-- Settles O49: form by form; the TRAPs by what every routine leaves. -/
theorem pcAfterEachInstruction : Obligations.PcAfterEachInstruction := by
  refine ⟨fun i s t h hchar => ?_, rfl⟩
  cases i with
  | br =>
    cases (exec_br_eq_setPc ..).symm.trans h
    rfl
  | jsrr =>
    cases (exec_jsrr ..).symm.trans h
    rfl
  | addReg | addImm | andReg | andImm | not | lea | jmp | jsr | st | str | rti | res =>
    cases h
    rfl
  | ld | ldi | ldr | sti =>
    cases h
    simp [pcAfter]
  | trapGetc | trapOut | trapPuts | trapIn | trapPutsp | trapHalt | trapUnhandled =>
    exact (exec_trap_reg_r7_pc rfl hchar h).2

end Sys2Proof.Machine

/-! SUPPORT. Memory as data and as cells, and what an instruction does not depend on. -/

namespace Sys2Proof.Machine

/-! ## Canonical memories (10_state.md R31) -/

theorem Memory.wfFrom_cons {lo k : Nat} {b : Byte} {m : Memory}
    (h : Memory.wfFrom lo ((k, b) :: m) = true) :
    lo ≤ k ∧ k < Memory.keyCount ∧ b ≠ unlistedByte ∧ m.wfFrom (k + 1) = true := by
  simpa [Memory.wfFrom, and_assoc] using h

/-- No key past the last cell is listed. -/
theorem Memory.readByte_of_keyCount_le {m : Memory} {lo k : Nat} (hm : m.wfFrom lo = true)
    (hk : Memory.keyCount ≤ k) : m.readByte k = unlistedByte := by
  induction m generalizing lo with
  | nil => rfl
  | cons e rest ih =>
    obtain ⟨-, hlt, -, hrest⟩ := Memory.wfFrom_cons hm
    have hne : e.1 ≠ k := by omega
    simpa [Memory.readByte, hne] using ih hrest

/-- A cell determines its two halves. -/
theorem Memory.readByte_eq_of_readCell_eq {m m' : Memory} {a : Word}
    (h : m.readCell a = m'.readCell a) :
    m.readByte (2 * a.toNat) = m'.readByte (2 * a.toNat) ∧
      m.readByte (2 * a.toNat + 1) = m'.readByte (2 * a.toNat + 1) := by
  have hlow := congrArg (BitVec.extractLsb' 0 8) h
  have hhigh := congrArg (BitVec.extractLsb' 8 8) h
  unfold Memory.readCell at hlow hhigh
  rw [BitVec.extractLsb'_append_eq_right, BitVec.extractLsb'_append_eq_right] at hlow
  rw [BitVec.extractLsb'_append_eq_left, BitVec.extractLsb'_append_eq_left] at hhigh
  exact ⟨hlow, hhigh⟩

/-- Every key below the count is the key of half a cell. -/
theorem Memory.readByte_eq_of_cells {m m' : Memory} (h : ∀ a : Word, m.readCell a = m'.readCell a)
    {k : Nat} (hk : k < Memory.keyCount) : m.readByte k = m'.readByte k := by
  unfold Memory.keyCount at hk
  obtain ⟨n, hn⟩ := Nat.even_or_odd' k
  have ha : (BitVec.ofNat 16 n).toNat = n := by
    rw [BitVec.toNat_ofNat]
    exact Nat.mod_eq_of_lt (by omega)
  obtain ⟨hlow, hhigh⟩ := Memory.readByte_eq_of_readCell_eq (h (BitVec.ofNat 16 n))
  rw [ha] at hlow hhigh
  rcases hn with rfl | rfl
  · exact hlow
  · exact hhigh

/-- The first key of a canonical memory is the least one listed. -/
theorem Memory.key_le_of_readByte_ne {lo k j : Nat} {b : Byte} {m : Memory}
    (hm : Memory.wfFrom lo ((k, b) :: m) = true)
    (hj : Memory.readByte ((k, b) :: m) j ≠ unlistedByte) : k ≤ j := by
  obtain ⟨-, hlt, hb, hrest⟩ := Memory.wfFrom_cons hm
  have hk : Memory.wfFrom k ((k, b) :: m) = true := by simp [Memory.wfFrom, hlt, hb, hrest]
  by_contra hjk
  exact hj (Memory.readByte_of_lt hk (by omega))

@[simp] theorem Memory.readByte_cons_same (k : Nat) (b : Byte) (m : Memory) :
    Memory.readByte ((k, b) :: m) k = b := if_pos rfl

theorem Memory.readByte_cons_other {k j : Nat} (b : Byte) (m : Memory) (h : k ≠ j) :
    Memory.readByte ((k, b) :: m) j = m.readByte j := if_neg h

/-- Canonical memories with the same bytes are the same list: the first key of each is listed in the
other, so they are one key. -/
theorem Memory.eq_of_readByte_eq {m m' : Memory} {lo : Nat} (hm : m.wfFrom lo = true)
    (hm' : m'.wfFrom lo = true) (h : ∀ k, m.readByte k = m'.readByte k) : m = m' := by
  induction m generalizing m' lo with
  | nil =>
    cases m' with
    | nil => rfl
    | cons e' rest' =>
      obtain ⟨-, -, hb', -⟩ := Memory.wfFrom_cons hm'
      exact absurd ((h e'.1).trans (Memory.readByte_cons_same ..)).symm hb'
  | cons e rest ih =>
    obtain ⟨k, b⟩ := e
    obtain ⟨-, -, hb, hrest⟩ := Memory.wfFrom_cons hm
    cases m' with
    | nil => exact absurd ((Memory.readByte_cons_same ..).symm.trans (h k)) hb
    | cons e' rest' =>
      obtain ⟨k', b'⟩ := e'
      obtain ⟨-, -, hb', hrest'⟩ := Memory.wfFrom_cons hm'
      have hle : k' ≤ k := Memory.key_le_of_readByte_ne hm' (by rwa [← h k, readByte_cons_same])
      have hge : k ≤ k' := Memory.key_le_of_readByte_ne hm (by rwa [h k', readByte_cons_same])
      obtain rfl : k = k' := by omega
      obtain rfl : b = b' := by simpa using h k
      have hbytes (j : Nat) : Memory.readByte rest j = Memory.readByte rest' j := by
        by_cases hj : k = j
        · rw [Memory.readByte_of_lt hrest (by omega), Memory.readByte_of_lt hrest' (by omega)]
        · simpa only [Memory.readByte_cons_other _ _ hj] using h j
      rw [ih hrest hrest' hbytes]

/-- Settles O5: equal cells are equal bytes, and canonical lists with equal bytes are equal. -/
theorem canonicalMemoryIsDeterminedByCells : Obligations.CanonicalMemoryIsDeterminedByCells := by
  intro m m' hm hm' h
  refine Memory.eq_of_readByte_eq hm hm' fun k => ?_
  by_cases hk : k < Memory.keyCount
  · exact Memory.readByte_eq_of_cells h hk
  · rw [Memory.readByte_of_keyCount_le hm (by omega), Memory.readByte_of_keyCount_le hm' (by omega)]

/-! ## Image load (70_reset_and_hazards.md R224) -/

/-- A load changes no cell below its first address or past its last. -/
theorem Memory.readCell_loadWords_outside {m : Memory} {k : Nat} {ws : List Word} {a : Word}
    (h : a.toNat < k ∨ k + ws.length ≤ a.toNat) :
    (m.loadWords k ws).readCell a = m.readCell a := by
  induction ws generalizing m k with
  | nil => rfl
  | cons w rest ih =>
    rw [List.length_cons] at h
    unfold Memory.loadWords
    split
    · next hk =>
      have hne : a ≠ BitVec.ofNat 16 k := fun e => by
        have := congrArg BitVec.toNat e
        rw [BitVec.toNat_ofNat, Nat.mod_eq_of_lt hk] at this
        omega
      rw [ih (by omega), Memory.readCell_writeCell_other _ _ hne]
    · rfl

/-- Word `j` of a load from address `k` is in cell `k + j`. -/
theorem Memory.readCell_loadWords {m : Memory} {k j : Nat} {ws : List Word} (hj : j < ws.length)
    (hkj : k + j < 65536) :
    (m.loadWords k ws).readCell (BitVec.ofNat 16 (k + j)) = ws[j] := by
  induction ws generalizing m k j with
  | nil => cases hj
  | cons w rest ih =>
    rw [Memory.loadWords, if_pos (by omega)]
    cases j with
    | zero =>
      have hk : (BitVec.ofNat 16 k).toNat = k := by
        rw [BitVec.toNat_ofNat]
        exact Nat.mod_eq_of_lt hkj
      simp only [Nat.add_zero]
      rw [Memory.readCell_loadWords_outside (.inl (by omega)),
        Memory.readCell_writeCell_same]
      rfl
    | succ j =>
      have hstep : k + (j + 1) = k + 1 + j := by omega
      rw [List.length_cons] at hj
      simp only [hstep]
      exact ih (by omega) (by omega)

/-- Settles O55: the cells of a load, inside and outside, and the fold of `boot`. -/
theorem imageLoadFillsFromTheOrigin : Obligations.ImageLoadFillsFromTheOrigin :=
  ⟨fun _ _ _ => ⟨rfl, fun _ hk hlt => Memory.readCell_loadWords hk hlt,
      fun _ h => Memory.readCell_loadWords_outside h⟩,
    fun c images im => by simp [boot], fun _ => rfl⟩

/-! ## Stores and loads -/

/-- Settles O54: each store form writes one cell, and a fetch there, away from KBSR, reads it. -/
theorem storeIsSeenByTheNextFetch : Obligations.StoreIsSeenByTheNextFetch := fun s sr =>
  ⟨fun off h => ⟨_, exec_st s sr off, s.fetchGives_writeCell _ h⟩,
    fun off h => ⟨_, exec_sti s sr off, State.fetchGives_writeCell _ _ h⟩,
    fun base off6 h => ⟨_, exec_str s sr base off6, s.fetchGives_writeCell _ h⟩⟩

/-- A load by one bus read away from KBSR gives the same register and COND from another memory with
the same cell. -/
theorem State.loadFrom_of_cell_eq {s : State} {m : Memory} (dr : Reg) {a : Word} (ha : a ≠ kbsrAddr)
    (h : m.readCell a = s.cell a) :
    (State.loadFrom { s with mem := m } dr a).regs = (s.loadFrom dr a).regs ∧
      (State.loadFrom { s with mem := m } dr a).cond = (s.loadFrom dr a).cond := by
  have hcell : State.cell { s with mem := m } a = s.cell a := h
  simp only [State.loadFrom, State.memRead_ne _ ha, hcell]
  exact ⟨rfl, rfl⟩

/-- LDI through a pointer cell away from KBSR is a load from where that cell points. -/
theorem exec_ldi_of_ne (s : State) (dr : Reg) (off : BitVec 9) (h : s.pc + sext off ≠ kbsrAddr) :
    exec (.ldi dr off) s = .next (s.loadFrom dr (s.cell (s.pc + sext off))) := by
  rw [exec_ldi, s.memRead_ne h]
  rfl

/-- Settles O52: each form is a load from one cell, LDI's address being the pointer cell, which the
two memories share. -/
theorem loadsDependOnlyOnTheCellsTheyRead : Obligations.LoadsDependOnlyOnTheCellsTheyRead := by
  refine fun s m t t' dr off base off6 => ⟨fun ha hm h h' => ?_, fun ha hm h h' => ?_,
    fun ha hdata hm hmdata h h' => ?_⟩
  · cases h
    cases h'
    exact State.loadFrom_of_cell_eq dr ha hm
  · cases h
    cases h'
    exact State.loadFrom_of_cell_eq dr ha hm
  · have hptr : State.cell { s with mem := m } (s.pc + sext off) = s.cell (s.pc + sext off) := hm
    have hrun := exec_ldi_of_ne { s with mem := m } dr off ha
    rw [hptr] at hrun
    cases (exec_ldi_of_ne s dr off ha).symm.trans h
    cases hrun.symm.trans h'
    exact State.loadFrom_of_cell_eq dr hdata hmdata

/-! ## The cells an instruction changes (20_memory.md R59) -/

section cells

variable {i : Instr} {s t u : State} {as bs : List Word}

theorem sameCellsExcept_of_mem_eq (h : t.mem = s.mem) : SameCellsExcept as s t := fun a _ =>
  congrArg (Memory.readCell · a) h

theorem SameCellsExcept.mono (h : SameCellsExcept as s t) (hsub : as ⊆ bs) :
    SameCellsExcept bs s t := fun a ha => h a fun hin => ha (hsub hin)

theorem SameCellsExcept.trans (h : SameCellsExcept as s t) (h' : SameCellsExcept as t u) :
    SameCellsExcept as s u := fun a ha => (h' a ha).trans (h a ha)

/-- A form with no data access leaves memory as it is. -/
theorem exec_mem_of_no_access (hread : readsMemory i = false) (hstore : storesTo i s = none)
    (h : exec i s = .next t) : t.mem = s.mem := by
  cases i with
  | addReg | addImm | andReg | andImm | not | lea | jmp | jsr | jsrr | trapOut | trapHalt
  | trapUnhandled | rti | res =>
    cases h
    rfl
  | br => cases h; split <;> rfl
  | trapGetc | trapIn =>
    rcases exec_callsReadChar_inv h rfl with rfl | ⟨c, rest, out, -, rfl⟩ <;> rfl
  | ld | ldi | ldr | trapPuts | trapPutsp => cases hread
  | st | sti | str => cases hstore

/-- A form that reads no memory changes the cell it stores to at most. -/
theorem exec_cells_of_no_read (hread : readsMemory i = false) (h : exec i s = .next t) :
    SameCellsExcept (storesTo i s).toList s t := by
  cases hstore : storesTo i s with
  | none => exact sameCellsExcept_of_mem_eq (exec_mem_of_no_access hread hstore h)
  | some a =>
    cases i with
    | st | str =>
      cases h
      cases hstore
      exact (sameCellsExcept_refl s).writeCell _ _
    | sti => cases hread
    | _ => cases hstore

/-- Any other form changes KBSR and KBDR besides at most. -/
theorem exec_cells (h : exec i s = .next t) :
    SameCellsExcept (kbsrAddr :: kbdrAddr :: (storesTo i s).toList) s t := by
  cases hread : readsMemory i with
  | false =>
    have hsub : (storesTo i s).toList ⊆ kbsrAddr :: kbdrAddr :: (storesTo i s).toList := by simp
    exact (exec_cells_of_no_read hread h).mono hsub
  | true =>
    cases i with
    | ld | ldr => cases h; exact sameCellsExcept_memRead s _
    | ldi => cases h; exact (sameCellsExcept_memRead s _).trans (sameCellsExcept_memRead _ _)
    | sti =>
      cases h
      refine ((sameCellsExcept_memRead s _).writeCell _ _).mono ?_
      simp [storesTo]
    | trapPuts | trapPutsp =>
      obtain ⟨u, hwalk, hrun⟩ := runStringRoutine_next s _
      cases hrun.symm.trans h
      have hcells := sameCellsExcept_walkString hwalk
      exact hcells
    | _ => cases hread

end cells

/-- Settles O50: by the form's data accesses. -/
theorem cellsChangeOnlyByStoresAndKeyboardPolls :
    Obligations.CellsChangeOnlyByStoresAndKeyboardPolls := fun _ _ _ h =>
  ⟨exec_cells h, fun hread => exec_cells_of_no_read hread h,
    fun hread hstore => exec_mem_of_no_access hread hstore h⟩

/-- Settles O51: a form with no data access computes the same from any memory; GETC and IN read the
console, which no cell decides. -/
theorem formsWithoutDataAccessIgnoreMemory : Obligations.FormsWithoutDataAccessIgnoreMemory := by
  intro i s t a v hread hstore h
  cases i with
  | addReg | addImm | andReg | andImm | not | lea | jmp | jsr | jsrr | trapOut | trapHalt
  | trapUnhandled | rti | res =>
    cases h
    rfl
  | br =>
    cases (exec_br_eq_setPc ..).symm.trans h
    exact exec_br_eq_setPc ..
  | trapGetc | trapIn =>
    rcases exec_callsReadChar_transfer h rfl (s' := s.writeCell a v) rfl rfl rfl with
      ⟨rfl, e⟩ | ⟨c, rest, out, -, rfl, e⟩ <;> exact e
  | ld | ldi | ldr | trapPuts | trapPutsp => cases hread
  | st | sti | str => cases hstore

/-! ## Updates that a string walk neither sees nor undoes -/

/-- The update `f` commutes with what a string routine does and hides nothing it reads. -/
structure PassesStringRoutine (f : State → State) : Prop where
  memRead : ∀ s a, (f s).memRead a = ((s.memRead a).1, f (s.memRead a).2)
  writeChars : ∀ s bs, (f s).writeChars bs = f (s.writeChars bs)
  enterTrap : ∀ s, (f s).enterTrap = f s.enterTrap
  reg : ∀ s r, (f s).reg r = s.reg r
  walkFuel : ∀ s, (f s).walkFuel = s.walkFuel

section passes

variable {f : State → State} {emit : Word → List Byte × Bool}

theorem PassesStringRoutine.walkString (hf : PassesStringRoutine f) (fuel : Nat) (a : Word)
    (s : State) :
    State.walkString emit fuel a (f s) = (State.walkString emit fuel a s).map f := by
  induction fuel generalizing a s with
  | zero => rfl
  | succ n ih =>
    unfold State.walkString
    simp only [hf.memRead, hf.writeChars, ih]
    split
    · rfl
    · split <;> rfl

theorem PassesStringRoutine.runStringRoutine (hf : PassesStringRoutine f) {s t : State}
    (h : s.runStringRoutine emit = .next t) : (f s).runStringRoutine emit = .next (f t) := by
  obtain ⟨u, hwalk, hrun⟩ := runStringRoutine_next s emit
  cases hrun.symm.trans h
  have hwalk' : State.walkString emit s.enterTrap.walkFuel (s.enterTrap.reg .r0) s.enterTrap =
    some t := hwalk
  rw [State.runStringRoutine, hf.enterTrap, hf.walkFuel, hf.reg, hf.walkString, hwalk']
  rfl

end passes

/-! ## Another COND before an instruction (10_state.md R27) -/

/-- The state with another COND. -/
def State.setCond (s : State) (c : BitVec 3) : State := { s with cond := c }

@[simp] theorem State.memRead_setCond (s : State) (c : BitVec 3) (a : Word) :
    (s.setCond c).memRead a = ((s.memRead a).1, (s.memRead a).2.setCond c) := by
  rcases s.memRead_cases a with ⟨ha, e⟩ | ⟨rfl, hi, e⟩ | ⟨k, rest, rfl, hi, e⟩
  · rw [e, State.memRead_ne _ ha]; rfl
  · rw [e, State.memRead_kbsr_nil (s.setCond c) hi]; rfl
  · rw [e, State.memRead_kbsr_cons (s.setCond c) hi]; rfl

theorem passesStringRoutine_setCond (c : BitVec 3) : PassesStringRoutine (State.setCond · c) :=
  ⟨fun s a => s.memRead_setCond c a, fun _ _ => rfl, fun _ => rfl, fun _ _ => rfl, fun _ => rfl⟩

/-- For a form that does not read COND, another COND before changes at most COND after: a form that
sets it sets it alike, any other leaves it. -/
theorem exec_setCond {i : Instr} {s t : State} (c : BitVec 3) (hi : readsCond i = false)
    (h : exec i s = .next t) : ∃ c', exec i (s.setCond c) = .next (t.setCond c') := by
  cases i with
  | br => cases hi
  | addReg | addImm | andReg | andImm | not | lea =>
    refine ⟨t.cond, ?_⟩
    cases h
    rfl
  | ld | ldi | ldr =>
    refine ⟨t.cond, ?_⟩
    cases h
    simp only [exec_ld, exec_ldi, exec_ldr, State.memRead_setCond]
    rfl
  | jmp | jsr | jsrr | st | str | trapOut | trapHalt | trapUnhandled | rti | res =>
    refine ⟨c, ?_⟩
    cases h
    rfl
  | sti =>
    refine ⟨c, ?_⟩
    cases h
    simp only [exec_sti, State.memRead_setCond]
    rfl
  | trapPuts | trapPutsp => exact ⟨c, (passesStringRoutine_setCond c).runStringRoutine h⟩
  | trapGetc | trapIn =>
    rcases exec_callsReadChar_transfer h rfl (s' := s.setCond c) rfl rfl rfl with
      ⟨rfl, e⟩ | ⟨k, rest, out, -, rfl, e⟩
    · exact ⟨c, e⟩
    · exact ⟨flagsOf (zext8 k), e⟩

/-- Settles O12: what each form does to COND, read through its flag register; and a form that does
not read COND does the same from any COND. -/
theorem condIsWrittenAndReadOnlyByTheListedForms :
    Obligations.CondIsWrittenAndReadOnlyByTheListedForms := by
  refine ⟨fun i s t h => ?_, fun i s t c hi h => ?_, rfl⟩
  · rcases exec_cond h with ⟨hn, e⟩ | ⟨r, hr, e⟩ | ⟨hc, hb, e⟩
    · rw [hn]
      exact e
    · rw [hr]
      exact .inl (e ▸ signFlag_flagsOf _)
    · rw [flagReg_of_callsReadChar hc]
      exact .inr ⟨hc, hb, e⟩
  · obtain ⟨c', h'⟩ := exec_setCond c hi h
    exact ⟨t.setCond c', h', rfl⟩

/-! ## Older entries in the logs (10_state.md R30, R35) -/

/-- The state with other entries in front of its two logs. -/
def State.prependLogs (s : State) (out : List Byte) (reports : List Anomaly) : State :=
  { s with output := out ++ s.output, anomalies := reports ++ s.anomalies }

section prependLogs

variable (s : State) (out : List Byte) (reports : List Anomaly)

@[simp] theorem State.memRead_prependLogs (a : Word) : (s.prependLogs out reports).memRead a =
    ((s.memRead a).1, (s.memRead a).2.prependLogs out reports) := by
  rcases s.memRead_cases a with ⟨ha, e⟩ | ⟨rfl, hi, e⟩ | ⟨k, rest, rfl, hi, e⟩
  · rw [e, State.memRead_ne _ ha]; rfl
  · rw [e, State.memRead_kbsr_nil (s.prependLogs out reports) hi]; rfl
  · rw [e, State.memRead_kbsr_cons (s.prependLogs out reports) hi]; rfl

@[simp] theorem State.writeChars_prependLogs (bs : List Byte) :
    (s.prependLogs out reports).writeChars bs = (s.writeChars bs).prependLogs out reports := by
  simp [State.prependLogs, State.writeChars]

@[simp] theorem State.reportUnhandledTrap_prependLogs (v : BitVec 8) :
    (s.prependLogs out reports).reportUnhandledTrap v =
      (s.reportUnhandledTrap v).prependLogs out reports := by
  simp [State.prependLogs, State.reportUnhandledTrap, State.instrAddr]

@[simp] theorem State.writeReg_prependLogs (i : Reg) (v : Word) :
    (s.prependLogs out reports).writeReg i v = (s.writeReg i v).prependLogs out reports := rfl

theorem State.readInto_prependLogs (c : Byte) (rest bs : List Byte) :
    (s.prependLogs out reports).readInto c rest bs =
      (s.readInto c rest bs).prependLogs out reports :=
  congrArg (fun u => (State.writeReg u .r0 (zext8 c)).setcc .r0)
    (State.writeChars_prependLogs (State.writeReg { s with input := rest } .r7 s.pc) out reports bs)

/-- The hold looks at the cell at PC, the queue, its end and the parameters. -/
theorem State.heldForInput_prependLogs :
    (s.prependLogs out reports).heldForInput = s.heldForInput := by
  rw [Bool.eq_iff_iff, State.heldForInput_iff, State.heldForInput_iff, State.readChar_eq_none_iff,
    State.readChar_eq_none_iff]
  rfl

theorem State.fetch_prependLogs : (s.prependLogs out reports).fetch =
    (s.fetch.1, s.fetch.2.prependLogs out reports) := by
  rw [State.fetch, show (s.prependLogs out reports).pc = s.pc from rfl, State.memRead_prependLogs]
  rfl

theorem passesStringRoutine_prependLogs :
    PassesStringRoutine (State.prependLogs · out reports) :=
  ⟨fun s a => s.memRead_prependLogs out reports a,
    fun s bs => s.writeChars_prependLogs out reports bs, fun _ => rfl, fun _ _ => rfl, fun _ => rfl⟩

variable {s}

/-- No instruction reads the logs. -/
theorem exec_prependLogs {i : Instr} {t : State} (h : exec i s = .next t) :
    exec i (s.prependLogs out reports) = .next (t.prependLogs out reports) := by
  cases i with
  | addReg | addImm | andReg | andImm | not | lea | jmp | jsr | jsrr | st | str | rti | res =>
    cases h
    rfl
  | br =>
    cases (exec_br_eq_setPc ..).symm.trans h
    exact exec_br_eq_setPc ..
  | ld | ldi | ldr | sti =>
    cases h
    simp only [exec_ld, exec_ldi, exec_ldr, exec_sti, State.memRead_prependLogs]
    rfl
  | trapOut =>
    cases h
    exact congrArg Host.Outcome.next
      (State.writeChars_prependLogs (s.writeReg .r7 s.pc) out reports [_])
  | trapHalt =>
    cases h
    exact congrArg (Host.Outcome.next <| State.halt ·)
      (State.writeChars_prependLogs (s.writeReg .r7 s.pc) out reports _)
  | trapUnhandled =>
    cases h
    exact congrArg Host.Outcome.next
      (State.reportUnhandledTrap_prependLogs (s.writeReg .r7 s.pc) out reports _)
  | trapPuts | trapPutsp => exact (passesStringRoutine_prependLogs out reports).runStringRoutine h
  | trapGetc | trapIn =>
    rcases exec_callsReadChar_transfer h rfl (s' := s.prependLogs out reports) rfl rfl rfl with
      ⟨rfl, e⟩ | ⟨k, rest, bs, -, rfl, e⟩
    · exact e
    · rw [e, State.readInto_prependLogs]

end prependLogs

/-- Settles O53: the events before a fetch, the fetch and the instruction read neither log. -/
theorem noStepReadsTheLogs : Obligations.NoStepReadsTheLogs := by
  intro s t out reports h
  have hheld := s.heldForInput_prependLogs out reports
  rcases step_cases h with ⟨hr, rfl⟩ | ⟨hr, hi, rfl⟩ | ⟨hr, hi, hh, rfl⟩ | ⟨hr, hi, hh, h⟩
  · exact step_of_ended (s := State.prependLogs _ out reports) hr
  · exact step_of_interrupt (s := State.prependLogs _ out reports) hr hi
  · exact step_of_hold (s := State.prependLogs _ out reports) hr hi (hheld.trans hh)
  · refine (step_of_execute (s := State.prependLogs _ out reports) hr hi (hheld.trans hh)).trans ?_
    rw [State.fetch_prependLogs]
    exact exec_prependLogs out reports h

end Sys2Proof.Machine
